-- ==== Sys2Proof/Word.lean ====
section
/-! DEFINITION. The word types of the machine (00_scope.md R8, R10; 10_state.md R20, R23, R24, R30): plain bit vectors, unsigned, bit 0 the least significant. -/

namespace Sys2Proof

/-- One byte of memory (10_state.md R30). -/
abbrev Byte := BitVec 8

/-- A linear address, a general register, the instruction pointer or an opmask register (10_state.md R23, R24, R25, R30). -/
abbrev Word64 := BitVec 64

/-- A full vector register: `MAXVL` = 512 bits (00_scope.md R8, decision D1). -/
abbrev VReg := BitVec 512

end Sys2Proof
end

