-- ==== Sys2Proof/Config.lean ====
section
/-! DEFINITION. The parameters of 00_scope.md R9 that are constant over a run: the CPUID feature words, the implemented linear-address width, and the translation with its address map. A `Config` is plain data held in the state, so a statement about every state is a statement about every value of the parameters. `MAXVL`, `NVREG`, `NKREG` and `KW` are fixed by decisions D1, D4 and D5 and show as types. -/

namespace Sys2Proof

/-- The five feature flags the source names (00_scope.md R2). -/
inductive Feature where
  | avx
  | avx2
  | avx512f
  | avx512vl
  | avx512dq
  deriving DecidableEq, Repr

/-- One stretch of the linear address space as `Translate` sees it (20_memory.md R47, R49, R50; the form is the model's, log 6). -/
structure Region where
  /-- first linear address -/
  base : Word64
  /-- number of bytes -/
  size : Nat
  /-- not present: every access is a page fault with P = 0 -/
  present : Bool
  /-- readable at CPL 3 -/
  user : Bool
  /-- instructions may be fetched from it -/
  exec : Bool
  /-- device memory, not ordinary memory (20_memory.md R44) -/
  device : Bool
  /-- where the first byte lies in `State.mem` -/
  target : Word64
  deriving DecidableEq, Repr

/-- The parameters that no instruction of the family changes (00_scope.md R9). -/
structure Config where
  /-- CPUID.01H:ECX (10_state.md R28) -/
  cpuid1Ecx : BitVec 32
  /-- CPUID.(EAX=07H,ECX=0):EBX (10_state.md R28) -/
  cpuid7Ebx : BitVec 32
  /-- `VA_BITS` (00_scope.md R9, decision D27) -/
  vaBits : Nat
  /-- `Translate` and the address map: the first region that holds an address decides; an address in none is ordinary memory under the identity (decision D20) -/
  regions : List Region
  deriving DecidableEq, Repr

/-- The defaults of 00_scope.md R9: all five features, `VA_BITS` = 48, `Translate` the identity that never faults. The CPUID bits that name no feature of the family are 0 (log 4). -/
def Config.default : Config where
  cpuid1Ecx := 0x10000000#32
  cpuid7Ebx := 0x80030020#32
  vaBits := 48
  regions := []

end Sys2Proof
end

