-- ==== Sys2Proof/Machine/State.lean ====
section
/-! DEFINITION. The state of the machine (10_state.md R20 to R33) as plain data, the reasons a step can stop (60_exceptions.md R140), and the launch state that stands for reset (70_reset_and_hazards.md R170). -/

namespace Sys2Proof.Machine

/-- Memory as address and byte pairs, addresses strictly rising, no byte equal to what an unlisted address reads as (`Memory.wf` in Ops.lean). -/
abbrev Memory := List Host.Cell

/-- The x87 state, which 10_state.md R27 names and no form reads or writes. Its layout is the family's (PRESUMED, log 3). -/
structure X87 where
  st : Vector (BitVec 80) 8
  control : BitVec 16
  status : BitVec 16
  tag : BitVec 16
  lastOpcode : BitVec 11
  lastInstruction : Word64
  lastData : Word64
  deriving DecidableEq, Repr

/-- Everything the spec gives the machine (10_state.md R33, INVENTORY.md). -/
structure State where
  /-- vector registers `V[0..31]` (R20, R21) -/
  v : Vector VReg 32
  /-- opmask registers `K[0..7]` (R23) -/
  k : Vector Word64 8
  /-- general registers `x[0..15]`: RAX, RCX, RDX, RBX, RSP, RBP, RSI, RDI, R8 to R15 (R24) -/
  x : Vector Word64 16
  /-- RIP (R25) -/
  pc : Word64
  /-- the flags register (R26, R29) -/
  rflags : Word64
  /-- the SIMD control and status register (R27) -/
  mxcsr : BitVec 32
  /-- the x87 state (R27) -/
  x87 : X87
  /-- CR0: PE, TS, AM (R29) -/
  cr0 : Word64
  /-- CR2: the faulting linear address of a #PF (R29, 60_exceptions.md R140) -/
  cr2 : Word64
  /-- CR4: OSXSAVE (R29) -/
  cr4 : Word64
  /-- XCR0: the enabled vector state (R29) -/
  xcr0 : Word64
  /-- current privilege level (R29) -/
  cpl : BitVec 2
  /-- IA32_EFER.LMA (R29) -/
  lma : Bool
  /-- CS.L (R29) -/
  csL : Bool
  /-- system-management mode (60_exceptions.md R160) -/
  smm : Bool
  /-- FS.base (R29) -/
  fsBase : Word64
  /-- GS.base (R29) -/
  gsBase : Word64
  /-- memory (R30) -/
  mem : Memory
  /-- the parameters of 00_scope.md R9 -/
  cfg : Config
  deriving DecidableEq, Repr

/-- The exceptions of 60_exceptions.md R140. Each is the step's outcome with the state unchanged (R154); all are the spec's own, so stopping is what the spec says (safe: a run that faults is never final). -/
inductive Fault where
  /-- #UD: raised by `step` for a reserved encoding or a forbidden byte in front (R141, R142, R144, R145), and by every meaning for a missing feature flag or the environment (R143, R146). Safe. -/
  | ud
  /-- #NM: raised by every meaning when CR0.TS = 1 (R147). Safe. -/
  | nm
  /-- #SS(0): raised by a memory operand in the SS segment that is not canonical (R148). Safe. -/
  | ss
  /-- #GP(0): raised by any other memory operand that is not canonical (R148), by `step` for an instruction of more than 15 bytes and for code bytes that are not canonical (R152). Safe. -/
  | gp
  /-- #PF(code): raised when `Translate` refuses a byte of a memory operand or of the instruction (R149, R152); carries the faulting linear address, which goes to CR2, and the fault code. Safe. -/
  | pf (address : Word64) (code : BitVec 32)
  /-- #AC(0): raised by a misaligned m32 or m64 operand under alignment checking (R150). Safe. -/
  | ac
  deriving DecidableEq, Repr

/-- Where the spec says the model refuses. -/
inductive Refusal where
  /-- an instruction that has no meaning yet; raised by no arm of `exec` in this model. Safe. -/
  | notModelled (mnemonic : String)
  /-- bytes outside the family's encoding space (30_encoding.md R77, R64, decision D23); raised by `step`. Safe. -/
  | notThisFamily
  /-- compatibility, 32-bit protected or system-management mode (60_exceptions.md R160, decision D3); raised by `step` and by every meaning. Safe. -/
  | modeNotSpecified
  /-- a memory operand, or code bytes, in device memory (20_memory.md R44, decision D9); raised by `step` and by memory-source forms. Safe. -/
  | deviceMemory
  /-- a misaligned m128 or m256 operand under alignment checking (60_exceptions.md R150, decision D7); raised by memory-source forms. Safe. -/
  | wideAlignmentCheck
  deriving DecidableEq, Repr

/-- The x87 state at launch: the family's reset values (PRESUMED, log 2). -/
def X87.reset : X87 where
  st := Vector.replicate 8 0#80
  control := 0x0040#16
  status := 0#16
  tag := 0x5555#16
  lastOpcode := 0#11
  lastInstruction := 0#64
  lastData := 0#64

/-- The launch state (70_reset_and_hazards.md R170, decision D18): 64-bit mode, the vector state enabled, TS = 0, no alignment checking, the default parameters. The spec leaves `v`, `k`, `x`, `pc` and memory to the run; here they are 0 and nothing listed (DESIGN CHOICE, logs 1 and 5). The control registers hold the family's values with the bits the launch state needs (PRESUMED, log 2). -/
def State.reset : State where
  v := Vector.replicate 32 0#512
  k := Vector.replicate 8 0#64
  x := Vector.replicate 16 0#64
  pc := 0#64
  rflags := 0x2#64
  mxcsr := 0x1F80#32
  x87 := X87.reset
  cr0 := 0xE0000011#64
  cr2 := 0#64
  cr4 := 0x40020#64
  xcr0 := 0xE7#64
  cpl := 0#2
  lma := true
  csL := true
  smm := false
  fsBase := 0#64
  gsBase := 0#64
  mem := []
  cfg := Config.default

end Sys2Proof.Machine
end

