-- ==== Sys2Proof/Machine/Flags.lean ====
section
/-! DEFINITION. The bits of the flags register and of the control registers that the family tests (10_state.md R28, R29), all of them read only. There is no flag computation: no form writes a flag, MXCSR or the x87 state (10_state.md R26, R27, 60_exceptions.md R151). -/

namespace Sys2Proof.Machine

/-- EFLAGS.VM, bit 17 (R29). -/
def State.vm (s : State) : Bool := s.rflags.getLsbD 17

/-- EFLAGS.AC, bit 18 (R29). -/
def State.alignCheck (s : State) : Bool := s.rflags.getLsbD 18

/-- CR0.PE, bit 0 (R29). -/
def State.pe (s : State) : Bool := s.cr0.getLsbD 0

/-- CR0.TS, bit 3 (R29, 60_exceptions.md R147). -/
def State.ts (s : State) : Bool := s.cr0.getLsbD 3

/-- CR0.AM, bit 18 (R29). -/
def State.am (s : State) : Bool := s.cr0.getLsbD 18

/-- CR4.OSXSAVE, bit 18 (R29). -/
def State.osxsave (s : State) : Bool := s.cr4.getLsbD 18

/-- XCR0[2:1] = 11b: the SSE and AVX state are enabled (R29, 60_exceptions.md R146). -/
def State.xcr0Avx (s : State) : Bool := s.xcr0.getLsbD 1 && s.xcr0.getLsbD 2

/-- XCR0[7:5] = 111b: the opmask, ZMM_Hi256 and Hi16_ZMM state are enabled (R29, 60_exceptions.md R146). -/
def State.xcr0Avx512 (s : State) : Bool := s.xcr0.getLsbD 5 && s.xcr0.getLsbD 6 && s.xcr0.getLsbD 7

/-- `AC_ENABLED` = CR0.AM and EFLAGS.AC and CPL = 3 (00_scope.md R9, 60_exceptions.md R150). -/
def State.acEnabled (s : State) : Bool := s.am && s.alignCheck && s.cpl == 3#2

/-- The CPUID bit of each feature flag (10_state.md R28). -/
def hasFeature (c : Config) : Feature → Bool
  | .avx => c.cpuid1Ecx.getLsbD 28
  | .avx2 => c.cpuid7Ebx.getLsbD 5
  | .avx512f => c.cpuid7Ebx.getLsbD 16
  | .avx512dq => c.cpuid7Ebx.getLsbD 17
  | .avx512vl => c.cpuid7Ebx.getLsbD 31

/-- The operating modes of the table of 60_exceptions.md R160. -/
inductive Mode where
  | bits64
  | compatibility
  | protected32
  | virtual8086
  | realAddress
  | systemManagement
  deriving DecidableEq, Repr

/-- `MODE` from the fields of R29: 64-bit mode is LMA = 1 and CS.L = 1. -/
def State.mode (s : State) : Mode :=
  if s.smm then .systemManagement
  else if !s.pe then .realAddress
  else if s.vm then .virtual8086
  else if s.lma then (if s.csL then .bits64 else .compatibility)
  else .protected32

/-- What the spec does in each mode (60_exceptions.md R160, decision D3). -/
inductive ModeRule where
  | admitted
  | undefinedOpcode
  | refused
  deriving DecidableEq, Repr

/-- The mode table of 60_exceptions.md R160. -/
def Mode.rule : Mode → ModeRule
  | .bits64 => .admitted
  | .realAddress => .undefinedOpcode
  | .virtual8086 => .undefinedOpcode
  | .compatibility => .refused
  | .protected32 => .refused
  | .systemManagement => .refused

end Sys2Proof.Machine
end

