-- ==== Sys2Proof/Machine/Ops.lean ====
section
/-! DEFINITION. The named operations over memory and registers: reading and writing a byte, translating an address, reading and writing registers, raising an exception (60_exceptions.md R154), checking that a form may execute (R143, R146, R147), and completing one (10_state.md R25, R32). -/

namespace Sys2Proof.Machine

/-! ## Memory as data -/

/-- What a byte of memory that is not listed reads as (DESIGN CHOICE, log 5). -/
def unlisted : Byte := 0#8

/-- One byte of memory. -/
def Memory.read : Memory → Nat → Byte
  | [], _ => unlisted
  | (k, b) :: m, a => if k = a then b else Memory.read m a

/-- Write one byte, keeping the canonical form: the value an unlisted byte reads as removes the entry. -/
def Memory.write : Memory → Nat → Byte → Memory
  | [], a, b => if b = unlisted then [] else [(a, b)]
  | (k, c) :: m, a, b =>
    if a < k then (if b = unlisted then (k, c) :: m else (a, b) :: (k, c) :: m)
    else if a = k then (if b = unlisted then m else (a, b) :: m)
    else (k, c) :: Memory.write m a b

/-- Every address from `lo` on, strictly rising, in the 64-bit space, and no byte equal to what an unlisted one reads as. -/
def Memory.wfFrom : Nat → Memory → Bool
  | _, [] => true
  | lo, (a, b) :: m => decide (lo ≤ a) && decide (a < 2 ^ 64) && b != unlisted && Memory.wfFrom (a + 1) m

/-- The canonical form of memory. -/
def Memory.wf (m : Memory) : Bool := Memory.wfFrom 0 m

/-! ## Updates of the state -/

/-- `V[d] <- value`, all 512 bits (00_scope.md R12). -/
def State.setV (s : State) (d : BitVec 5) (value : VReg) : State := { s with v := s.v.set d.toNat value d.isLt }

/-- `pc <- target` (00_scope.md R12). -/
def State.setPc (s : State) (target : Word64) : State := { s with pc := target }

/-- Replace memory: used by the loader only, no form writes memory (10_state.md R30). -/
def State.setMem (s : State) (m : Memory) : State := { s with mem := m }

/-- CR2 receives a faulting linear address (10_state.md R29). -/
def State.setCr2 (s : State) (a : Word64) : State := { s with cr2 := a }

/-! ## Register reads -/

/-- `V[i]` (00_scope.md R12). -/
def State.readV (s : State) (i : BitVec 5) : VReg := s.v[i.toNat]'i.isLt

/-- `K[i]` (00_scope.md R12). -/
def State.readK (s : State) (i : BitVec 3) : Word64 := s.k[i.toNat]'i.isLt

/-- `x[i]` (00_scope.md R12). -/
def State.readX (s : State) (i : BitVec 4) : Word64 := s.x[i.toNat]'i.isLt

/-! ## Stopping -/

/-- Why a step stops. -/
inductive Stop where
  | fault (f : Fault)
  | refuse (r : Refusal)
  deriving DecidableEq, Repr

/-- A stop as the outcome of a step. -/
def Stop.outcome : Stop → Host.Outcome State Fault Refusal
  | .fault f => .fault f
  | .refuse r => .refused r

/-- `raise <Exception>(info)` (00_scope.md R12, 60_exceptions.md R154): the step ends with that exception as its outcome. -/
def raise {α : Type} (f : Fault) : Except Stop α := .error (.fault f)

/-- The model refuses: "not specified by this spec". -/
def refuse {α : Type} (r : Refusal) : Except Stop α := .error (.refuse r)

/-- The state a raised exception leaves (60_exceptions.md R140 column "Records", R154): everything as before the instruction, `pc` at its first byte, and for #PF the faulting linear address in CR2. -/
def State.atFault (s : State) : Fault → State
  | .pf a _ => s.setCr2 a
  | .ud => s
  | .nm => s
  | .ss => s
  | .gp => s
  | .ac => s

/-- The vector numbers of 60_exceptions.md R140. -/
def Fault.vector : Fault → Nat
  | .ud => 6
  | .nm => 7
  | .ss => 12
  | .gp => 13
  | .pf _ _ => 14
  | .ac => 17

/-- The error codes of 60_exceptions.md R140. -/
def Fault.errorCode : Fault → Option (BitVec 32)
  | .ud => none
  | .nm => none
  | .ss => some 0#32
  | .gp => some 0#32
  | .pf _ code => some code
  | .ac => some 0#32

/-- A checked computation of the next state as the outcome of a step. -/
def finish : Except Stop State → Host.Outcome State Fault Refusal
  | .ok s => .next s
  | .error e => e.outcome

/-! ## Enabling conditions -/

/-- The two schemes of 30_encoding.md R62. -/
inductive Scheme where
  | vex
  | evex
  deriving DecidableEq, Repr

/-- #UD from the environment inside an admitted mode (60_exceptions.md R146): CR4.OSXSAVE = 0, or the vector state the scheme needs is not enabled in XCR0. -/
def State.vectorEnabled (s : State) : Scheme → Bool
  | .vex => s.osxsave && s.xcr0Avx
  | .evex => s.osxsave && s.xcr0Avx && s.xcr0Avx512

/-- Every flag of the row's column "Needs" is present (60_exceptions.md R143). -/
def State.hasFeatures (s : State) (needs : List Feature) : Bool := needs.all (hasFeature s.cfg)

/-- The conditions a form tests before it touches its operands, in the order of 60_exceptions.md R152: #UD for any reason (R143, R146), then #NM (R147). A mode the spec refuses is refused (R160). -/
def checkEnabled (e : Scheme) (needs : List Feature) (s : State) : Except Stop Unit :=
  match s.mode.rule with
  | .refused => refuse .modeNotSpecified
  | .undefinedOpcode => raise .ud
  | .admitted =>
    if !(s.vectorEnabled e && s.hasFeatures needs) then raise .ud
    else if s.ts then raise .nm
    else .ok ()

/-- Completion (10_state.md R25, R32): the destination vector register and `pc` are written, nothing else. -/
def retire (s : State) (d : BitVec 5) (value : VReg) (len : Nat) : State :=
  (s.setV d value).setPc (s.pc + BitVec.ofNat 64 len)

/-! ## Address translation -/

/-- What an access is for (20_memory.md R47, R54). -/
inductive Access where
  | read
  | fetch
  deriving DecidableEq, Repr

/-- Canonical (20_memory.md R47): bits 63 down to `VA_BITS`-1 are all 0 or all 1. -/
def canonical (vaBits : Nat) (a : Word64) : Bool :=
  a.toNat >>> (vaBits - 1) == 0 || (a.toNat >>> (vaBits - 1)) + 1 == 2 ^ (65 - vaBits)

/-- The region holds the linear address. -/
def regionHolds (r : Region) (a : Word64) : Bool :=
  decide (r.base.toNat ≤ a.toNat) && decide (a.toNat < r.base.toNat + r.size)

/-- The page-fault code (60_exceptions.md R140): bit 0 P, bit 1 W/R = 0, bit 2 U/S, bit 4 I/D. -/
def faultCode (present : Bool) (acc : Access) (cpl : BitVec 2) : BitVec 32 :=
  (if present then 1#32 else 0#32) ||| (if cpl = 3#2 then 4#32 else 0#32) ||| (if acc = .fetch then 16#32 else 0#32)

/-- The answer of `Translate` for one byte (20_memory.md R47). -/
inductive Translation where
  | mapped (pa : Word64) (device : Bool)
  | pageFault (code : BitVec 32)
  deriving DecidableEq, Repr

/-- An access a region allows: present, readable at this privilege level, and executable if code is fetched (20_memory.md R47 step 2, 10_state.md R29 "page permissions"; log 6). -/
def regionAllows (r : Region) (acc : Access) (cpl : BitVec 2) : Bool :=
  r.present && (r.user || cpl != 3#2) && (acc == .read || r.exec)

/-- `Translate(la, access, CPL)` over the configuration's regions; the identity where no region holds the address (20_memory.md R47, R50, decision D20). -/
def translateIn (regions : List Region) (acc : Access) (cpl : BitVec 2) (la : Word64) : Translation :=
  match regions.find? (fun r => regionHolds r la) with
  | none => .mapped la false
  | some r =>
    if regionAllows r acc cpl then .mapped (r.target + (la - r.base)) r.device else .pageFault (faultCode r.present acc cpl)

/-- `Translate` of the machine. -/
def State.translate (s : State) (acc : Access) (la : Word64) : Translation := translateIn s.cfg.regions acc s.cpl la

/-- The byte at a linear address whose translation is not refused. -/
def State.byteAt (s : State) (acc : Access) (la : Word64) : Byte :=
  match s.translate acc la with
  | .mapped pa _ => s.mem.read pa.toNat
  | .pageFault _ => unlisted

/-- The linear address of byte `k` of an access, modulo 2^64 (20_memory.md R47; log 8). -/
def byteAddress (la : Word64) (k : Nat) : Word64 := la + BitVec.ofNat 64 k

/-- Every byte of the access is canonical (20_memory.md R47 step 1). -/
def State.allCanonical (s : State) (la : Word64) (n : Nat) : Bool :=
  (List.range n).all fun k => canonical s.cfg.vaBits (byteAddress la k)

/-- The page fault of the lowest-addressed byte that `Translate` refuses, if any (20_memory.md R47 step 2, 60_exceptions.md R152). -/
def State.firstPageFault (s : State) (acc : Access) (la : Word64) (n : Nat) : Option Fault :=
  (List.range n).findSome? fun k =>
    match s.translate acc (byteAddress la k) with
    | .mapped _ _ => none
    | .pageFault code => some (.pf (byteAddress la k) code)

/-- Some byte of the access lies in device memory (20_memory.md R44). -/
def State.touchesDevice (s : State) (acc : Access) (la : Word64) (n : Nat) : Bool :=
  (List.range n).any fun k =>
    match s.translate acc (byteAddress la k) with
    | .mapped _ device => device
    | .pageFault _ => false

/-- `n` elements of `e` bits put together, element 0 lowest, as a `w`-bit value; the bits above them are 0. -/
def assemble (w e : Nat) (f : Nat → BitVec e) : Nat → BitVec w
  | 0 => 0#w
  | n + 1 => assemble w e f n ||| ((f n).setWidth w <<< (n * e))

/-- A little-endian value of `w` bits at a linear address (20_memory.md R40). -/
def State.valueAt (s : State) (w : Nat) (la : Word64) : BitVec w :=
  assemble w 8 (fun k => s.byteAt .read (byteAddress la k)) (w / 8)

end Sys2Proof.Machine
end

