-- ==== Sys2Proof/Syntax.lean ====
section
/-! DEFINITION. The instructions as data: one constructor of `Instr` for each of the 20 rows of the source's opcode table (30_encoding.md R75), with the operands the encoding gives it (R61, R67 to R73). Register numbers stand un-inverted and assembled. -/

namespace Sys2Proof

/-- A legacy byte that may stand before the VEX or EVEX bytes (30_encoding.md R61): the six segment overrides 26H, 2EH, 36H, 3EH, 64H, 65H and the address-size byte 67H. -/
inductive LegacyPrefix where
  | es
  | cs
  | ss
  | ds
  | fs
  | gs
  | addr32
  deriving DecidableEq, Repr

/-- The displacement bytes as encoded, before any extension or scaling (30_encoding.md R72). -/
inductive Disp where
  | absent
  | disp8 (v : BitVec 8)
  | disp32 (v : BitVec 32)
  deriving DecidableEq, Repr

/-- A memory operand, ModRM.mod other than 11b, in the four shapes of 20_memory.md R46. Register numbers are the 4-bit ones with the extension bits X and B put in. -/
inductive MemOperand where
  /-- no SIB byte: `x[{B, rm}] + D` -/
  | base (b : BitVec 4) (d : Disp)
  /-- mod = 00b, rm = 101b: `nextpc + disp32` -/
  | ripRel (d : BitVec 32)
  /-- SIB byte with a base; index number 0100b means no index -/
  | sib (scale : BitVec 2) (index base : BitVec 4) (d : Disp)
  /-- SIB byte, mod = 00b and base field 101b: no base, a 4-byte displacement -/
  | sibNoBase (scale : BitVec 2) (index : BitVec 4) (d : BitVec 32)
  deriving DecidableEq, Repr

/-- The second operand of a form written `xmm2/m32` or `xmm2/m64` (30_encoding.md R68, R70). -/
inductive Source where
  | reg (s : BitVec 5)
  | mem (m : MemOperand)
  deriving DecidableEq, Repr

/-- The masking fields of an EVEX form (30_encoding.md R67): `aaa` = 000b is no writemask, `z` chooses zeroing-masking. -/
structure Masking where
  aaa : BitVec 3
  z : Bool
  deriving DecidableEq, Repr

/-- The 20 forms, in the order of the source's opcode table (30_encoding.md R75). `ps` are the legacy bytes in front, `d` the destination register number, `s` the source register number, `k` the masking fields. -/
inductive Instr where
  /-- row 1, R101: VBROADCASTSS xmm1, m32 (VEX.128.66.0F38.W0 18 /r) -/
  | vexSsXmmMem (ps : List LegacyPrefix) (d : BitVec 4) (m : MemOperand)
  /-- row 2, R102: VBROADCASTSS ymm1, m32 (VEX.256.66.0F38.W0 18 /r) -/
  | vexSsYmmMem (ps : List LegacyPrefix) (d : BitVec 4) (m : MemOperand)
  /-- row 3, R103: VBROADCASTSD ymm1, m64 (VEX.256.66.0F38.W0 19 /r) -/
  | vexSdYmmMem (ps : List LegacyPrefix) (d : BitVec 4) (m : MemOperand)
  /-- row 4, R104: VBROADCASTF128 ymm1, m128 (VEX.256.66.0F38.W0 1A /r) -/
  | vexF128YmmMem (ps : List LegacyPrefix) (d : BitVec 4) (m : MemOperand)
  /-- row 5, R105: VBROADCASTSS xmm1, xmm2 (VEX.128.66.0F38.W0 18 /r) -/
  | vexSsXmmReg (ps : List LegacyPrefix) (d s : BitVec 4)
  /-- row 6, R106: VBROADCASTSS ymm1, xmm2 (VEX.256.66.0F38.W0 18 /r) -/
  | vexSsYmmReg (ps : List LegacyPrefix) (d s : BitVec 4)
  /-- row 7, R107: VBROADCASTSD ymm1, xmm2 (VEX.256.66.0F38.W0 19 /r) -/
  | vexSdYmmReg (ps : List LegacyPrefix) (d s : BitVec 4)
  /-- row 8, R113: VBROADCASTSD ymm1 with mask, xmm2/m64 (EVEX.256.66.0F38.W1 19 /r) -/
  | evexSdYmm (ps : List LegacyPrefix) (d : BitVec 5) (k : Masking) (src : Source)
  /-- row 9, R114: VBROADCASTSD zmm1 with mask, xmm2/m64 (EVEX.512.66.0F38.W1 19 /r) -/
  | evexSdZmm (ps : List LegacyPrefix) (d : BitVec 5) (k : Masking) (src : Source)
  /-- row 10, R120: VBROADCASTF32X2 ymm1 with mask, xmm2/m64 (EVEX.256.66.0F38.W0 19 /r) -/
  | evexF32x2Ymm (ps : List LegacyPrefix) (d : BitVec 5) (k : Masking) (src : Source)
  /-- row 11, R121: VBROADCASTF32X2 zmm1 with mask, xmm2/m64 (EVEX.512.66.0F38.W0 19 /r) -/
  | evexF32x2Zmm (ps : List LegacyPrefix) (d : BitVec 5) (k : Masking) (src : Source)
  /-- row 12, R110: VBROADCASTSS xmm1 with mask, xmm2/m32 (EVEX.128.66.0F38.W0 18 /r) -/
  | evexSsXmm (ps : List LegacyPrefix) (d : BitVec 5) (k : Masking) (src : Source)
  /-- row 13, R111: VBROADCASTSS ymm1 with mask, xmm2/m32 (EVEX.256.66.0F38.W0 18 /r) -/
  | evexSsYmm (ps : List LegacyPrefix) (d : BitVec 5) (k : Masking) (src : Source)
  /-- row 14, R112: VBROADCASTSS zmm1 with mask, xmm2/m32 (EVEX.512.66.0F38.W0 18 /r) -/
  | evexSsZmm (ps : List LegacyPrefix) (d : BitVec 5) (k : Masking) (src : Source)
  /-- row 15, R122: VBROADCASTF32X4 ymm1 with mask, m128 (EVEX.256.66.0F38.W0 1A /r) -/
  | evexF32x4Ymm (ps : List LegacyPrefix) (d : BitVec 5) (k : Masking) (m : MemOperand)
  /-- row 16, R123: VBROADCASTF32X4 zmm1 with mask, m128 (EVEX.512.66.0F38.W0 1A /r) -/
  | evexF32x4Zmm (ps : List LegacyPrefix) (d : BitVec 5) (k : Masking) (m : MemOperand)
  /-- row 17, R124: VBROADCASTF64X2 ymm1 with mask, m128 (EVEX.256.66.0F38.W1 1A /r) -/
  | evexF64x2Ymm (ps : List LegacyPrefix) (d : BitVec 5) (k : Masking) (m : MemOperand)
  /-- row 18, R125: VBROADCASTF64X2 zmm1 with mask, m128 (EVEX.512.66.0F38.W1 1A /r) -/
  | evexF64x2Zmm (ps : List LegacyPrefix) (d : BitVec 5) (k : Masking) (m : MemOperand)
  /-- row 19, R126: VBROADCASTF32X8 zmm1 with mask, m256 (EVEX.512.66.0F38.W0 1B /r) -/
  | evexF32x8Zmm (ps : List LegacyPrefix) (d : BitVec 5) (k : Masking) (m : MemOperand)
  /-- row 20, R127: VBROADCASTF64X4 zmm1 with mask, m256 (EVEX.512.66.0F38.W1 1B /r) -/
  | evexF64x4Zmm (ps : List LegacyPrefix) (d : BitVec 5) (k : Masking) (m : MemOperand)
  deriving DecidableEq, Repr

end Sys2Proof
end

