-- ==== Sys2Proof/Decode.lean ====
section
/-! DEFINITION. Bytes to instructions and back (30_encoding.md R60 to R84): the length of an instruction, a decoder that is total on any bytes and rejects by name, and after it an encoder written from the same encoding tables. -/

namespace Sys2Proof

/-- Bytes of a displacement (30_encoding.md R72). -/
def Disp.size : Disp → Nat
  | .absent => 0
  | .disp8 _ => 1
  | .disp32 _ => 4

/-- Bytes of the SIB byte and the displacement of a memory operand (30_encoding.md R68, R72). -/
def MemOperand.size : MemOperand → Nat
  | .base _ d => d.size
  | .ripRel _ => 4
  | .sib _ _ _ d => 1 + d.size
  | .sibNoBase _ _ _ => 5

/-- Bytes after ModRM of an `xmm2/m32` or `xmm2/m64` operand. -/
def Source.size : Source → Nat
  | .reg _ => 0
  | .mem m => m.size

/-- 30_encoding.md R74 for a VEX form whose SIB and displacement take `n` bytes. -/
def vexLength (ps : List LegacyPrefix) (n : Nat) : Nat := ps.length + 3 + 1 + 1 + n

/-- 30_encoding.md R74 for an EVEX form whose SIB and displacement take `n` bytes. -/
def evexLength (ps : List LegacyPrefix) (n : Nat) : Nat := ps.length + 4 + 1 + 1 + n

/-- The instruction length `len` in bytes (30_encoding.md R74). -/
def Instr.length : Instr → Nat
  | .vexSsXmmMem ps _ m => vexLength ps m.size
  | .vexSsYmmMem ps _ m => vexLength ps m.size
  | .vexSdYmmMem ps _ m => vexLength ps m.size
  | .vexF128YmmMem ps _ m => vexLength ps m.size
  | .vexSsXmmReg ps _ _ => vexLength ps 0
  | .vexSsYmmReg ps _ _ => vexLength ps 0
  | .vexSdYmmReg ps _ _ => vexLength ps 0
  | .evexSdYmm ps _ _ src => evexLength ps src.size
  | .evexSdZmm ps _ _ src => evexLength ps src.size
  | .evexF32x2Ymm ps _ _ src => evexLength ps src.size
  | .evexF32x2Zmm ps _ _ src => evexLength ps src.size
  | .evexSsXmm ps _ _ src => evexLength ps src.size
  | .evexSsYmm ps _ _ src => evexLength ps src.size
  | .evexSsZmm ps _ _ src => evexLength ps src.size
  | .evexF32x4Ymm ps _ _ m => evexLength ps m.size
  | .evexF32x4Zmm ps _ _ m => evexLength ps m.size
  | .evexF64x2Ymm ps _ _ m => evexLength ps m.size
  | .evexF64x2Zmm ps _ _ m => evexLength ps m.size
  | .evexF32x8Zmm ps _ _ m => evexLength ps m.size
  | .evexF64x4Zmm ps _ _ m => evexLength ps m.size

/-! ## Decoding -/

/-- What the decoder answers. -/
inductive Decoded where
  /-- a form of the family, and the bytes after it -/
  | instr (i : Instr) (rest : List Byte)
  /-- inside the family's encoding space, but reserved or with a forbidden byte in front: raises #UD (30_encoding.md R78 to R83, R61) -/
  | undefinedOpcode
  /-- outside the family's encoding space: "not specified by this spec" (30_encoding.md R77, R64, decision D23) -/
  | notThisFamily
  /-- the bytes end before the instruction does, and nothing read so far puts it outside the family -/
  | incomplete
  deriving DecidableEq, Repr

/-- What a byte in front of the VEX or EVEX escape is (30_encoding.md R61). -/
inductive FrontByte where
  | allowed (p : LegacyPrefix)
  | forbidden
  | other
  deriving DecidableEq, Repr

/-- 30_encoding.md R61: the allowed bytes, the forbidden ones, and everything else. `mode64`: the REX bytes 40H to 4FH count only in 64-bit mode. -/
def frontByte (mode64 : Bool) (b : Byte) : FrontByte :=
  if b = 0x26#8 then .allowed .es
  else if b = 0x2E#8 then .allowed .cs
  else if b = 0x36#8 then .allowed .ss
  else if b = 0x3E#8 then .allowed .ds
  else if b = 0x64#8 then .allowed .fs
  else if b = 0x65#8 then .allowed .gs
  else if b = 0x67#8 then .allowed .addr32
  else if b = 0xF0#8 ∨ b = 0x66#8 ∨ b = 0xF2#8 ∨ b = 0xF3#8 then .forbidden
  else if mode64 ∧ b.extractLsb' 4 4 = 4#4 then .forbidden
  else .other

/-- The bytes in front of the escape: the allowed ones in order, whether a forbidden one stands among them, and what follows. -/
structure Front where
  ps : List LegacyPrefix
  bad : Bool
  rest : List Byte
  deriving DecidableEq, Repr

/-- Skip the legacy bytes (30_encoding.md R74, "skip legacy prefixes"). -/
def scanFront (mode64 : Bool) : List Byte → Front
  | [] => ⟨[], false, []⟩
  | b :: bs =>
    match frontByte mode64 b with
    | .allowed p => let f := scanFront mode64 bs; ⟨p :: f.ps, f.bad, f.rest⟩
    | .forbidden => let f := scanFront mode64 bs; ⟨f.ps, true, f.rest⟩
    | .other => ⟨[], false, b :: bs⟩

/-- A four-byte displacement, least significant byte first (30_encoding.md R72). -/
def takeDisp32 : List Byte → Option (BitVec 32 × List Byte)
  | b0 :: b1 :: b2 :: b3 :: bs => some (b3 ++ b2 ++ b1 ++ b0, bs)
  | _ => none

/-- The displacement chosen by ModRM.mod alone: none, one byte, four bytes (30_encoding.md R72). -/
def takeDisp (md : BitVec 2) (bs : List Byte) : Option (Disp × List Byte) :=
  if md = 0#2 then some (.absent, bs)
  else if md = 1#2 then
    match bs with
    | b :: bs => some (.disp8 b, bs)
    | [] => none
  else (takeDisp32 bs).map fun (v, bs) => (.disp32 v, bs)

/-- The memory operand of ModRM.mod other than 11b: SIB byte, displacement and register numbers (30_encoding.md R68, R69, R72; the cases of 20_memory.md R46). `x` and `b` are the un-inverted extension bits. -/
def takeMem (md : BitVec 2) (rm : BitVec 3) (x b : Bool) (bs : List Byte) : Option (MemOperand × List Byte) :=
  if rm = 4#3 then
    match bs with
    | [] => none
    | sib :: bs =>
      let ss := sib.extractLsb' 6 2
      let index := BitVec.cons x (sib.extractLsb' 3 3)
      let base := sib.extractLsb' 0 3
      if md = 0#2 ∧ base = 5#3 then (takeDisp32 bs).map fun (v, bs) => (.sibNoBase ss index v, bs)
      else (takeDisp md bs).map fun (d, bs) => (.sib ss index (BitVec.cons b base) d, bs)
  else if md = 0#2 ∧ rm = 5#3 then (takeDisp32 bs).map fun (v, bs) => (.ripRel v, bs)
  else (takeDisp md bs).map fun (d, bs) => (.base (BitVec.cons b rm) d, bs)

/-- The ModRM r/m operand: the raw register field, or a memory operand (30_encoding.md R68). -/
inductive RmOperand where
  | reg (rm : BitVec 3)
  | mem (m : MemOperand)
  deriving DecidableEq, Repr

/-- ModRM and what follows it: the reg field, the r/m operand, the bytes after (30_encoding.md R68, R72, R74). -/
def takeModRM (x b : Bool) : List Byte → Option (BitVec 3 × RmOperand × List Byte)
  | [] => none
  | m :: bs =>
    let md := m.extractLsb' 6 2
    let reg := m.extractLsb' 3 3
    let rm := m.extractLsb' 0 3
    if md = 3#2 then some (reg, .reg rm, bs)
    else (takeMem md rm x b bs).map fun (o, bs) => (reg, .mem o, bs)

/-- 30_encoding.md R77, the VEX lines after the vvvv and W lines: the row, or `none` where the line says #UD. -/
def vexRow (op : Byte) (l : Bool) (ps : List LegacyPrefix) (d : BitVec 4) (b : Bool) : RmOperand → Option Instr
  | .mem m =>
    if op = 0x18#8 then (if l then some (.vexSsYmmMem ps d m) else some (.vexSsXmmMem ps d m))
    else if op = 0x19#8 then (if l then some (.vexSdYmmMem ps d m) else none)
    else if op = 0x1A#8 then (if l then some (.vexF128YmmMem ps d m) else none)
    else none
  | .reg rm =>
    let s := BitVec.cons b rm
    if op = 0x18#8 then (if l then some (.vexSsYmmReg ps d s) else some (.vexSsXmmReg ps d s))
    else if op = 0x19#8 then (if l then some (.vexSdYmmReg ps d s) else none)
    else none

/-- The EVEX rows whose second operand may be a register or memory: opcodes 18H and 19H (30_encoding.md R77). `ll` is L'L. -/
def evexSourceRow (op : Byte) (w : Bool) (ll : BitVec 2) (ps : List LegacyPrefix) (d : BitVec 5) (k : Masking)
    (src : Source) : Option Instr :=
  if op = 0x18#8 then
    if w then none
    else if ll = 0#2 then some (.evexSsXmm ps d k src)
    else if ll = 1#2 then some (.evexSsYmm ps d k src)
    else if ll = 2#2 then some (.evexSsZmm ps d k src)
    else none
  else if op = 0x19#8 then
    if ll = 1#2 then (if w then some (.evexSdYmm ps d k src) else some (.evexF32x2Ymm ps d k src))
    else if ll = 2#2 then (if w then some (.evexSdZmm ps d k src) else some (.evexF32x2Zmm ps d k src))
    else none
  else none

/-- The EVEX rows whose second operand is memory only: opcodes 1AH and 1BH (30_encoding.md R77, R83). -/
def evexMemRow (op : Byte) (w : Bool) (ll : BitVec 2) (ps : List LegacyPrefix) (d : BitVec 5) (k : Masking)
    (m : MemOperand) : Option Instr :=
  if op = 0x1A#8 then
    if ll = 1#2 then (if w then some (.evexF64x2Ymm ps d k m) else some (.evexF32x4Ymm ps d k m))
    else if ll = 2#2 then (if w then some (.evexF64x2Zmm ps d k m) else some (.evexF32x4Zmm ps d k m))
    else none
  else if op = 0x1B#8 then
    if ll = 2#2 then (if w then some (.evexF64x4Zmm ps d k m) else some (.evexF32x8Zmm ps d k m))
    else none
  else none

/-- 30_encoding.md R77, the EVEX lines after the reserved-field lines; the register source number is `{X, B, rm}` (R70). -/
def evexRow (op : Byte) (w : Bool) (ll : BitVec 2) (ps : List LegacyPrefix) (d : BitVec 5) (k : Masking) (x b : Bool) :
    RmOperand → Option Instr
  | .reg rm => evexSourceRow op w ll ps d k (.reg (BitVec.cons x (BitVec.cons b rm)))
  | .mem m =>
    if op = 0x18#8 ∨ op = 0x19#8 then evexSourceRow op w ll ps d k (.mem m) else evexMemRow op w ll ps d k m

/-- After the whole instruction is read: #UD for a forbidden byte in front or a reserved encoding, else the row. -/
def answer (bad reserved : Bool) (row : Option Instr) (rest : List Byte) : Decoded :=
  if bad || reserved then .undefinedOpcode
  else
    match row with
    | some i => .instr i rest
    | none => .undefinedOpcode

/-- The bytes after a C4H escape (30_encoding.md R63, R69, R77). The family's space is tested as soon as its fields are read; #UD only once the whole instruction is. Outside 64-bit mode the inverted R and X must be 1, otherwise the bytes are a different, non-VEX instruction, and B is ignored (R63). -/
def decodeVex (mode64 : Bool) (ps : List LegacyPrefix) (bad : Bool) : List Byte → Decoded
  | [] => .incomplete
  | b1 :: bs =>
    if mode64 = false ∧ b1.extractLsb' 6 2 ≠ 3#2 then .notThisFamily
    else if b1.extractLsb' 0 5 ≠ 2#5 then .notThisFamily
    else
      match bs with
      | [] => .incomplete
      | b2 :: bs =>
        if b2.extractLsb' 0 2 ≠ 1#2 then .notThisFamily
        else
          match bs with
          | [] => .incomplete
          | op :: bs =>
            if op ≠ 0x18#8 ∧ op ≠ 0x19#8 ∧ op ≠ 0x1A#8 then .notThisFamily
            else
              let r := !b1.getLsbD 7
              let x := !b1.getLsbD 6
              let b := mode64 && !b1.getLsbD 5
              match takeModRM x b bs with
              | none => .incomplete
              | some (reg, rm, rest) =>
                answer bad (b2.extractLsb' 3 4 != 0xF#4 || b2.getLsbD 7)
                  (vexRow op (b2.getLsbD 2) ps (BitVec.cons r reg) b rm) rest

/-- The EVEX fields that must hold fixed values (30_encoding.md R77 to R82): true where the line says #UD. `p1`, `p2` are the payload bytes of R65. -/
def evexReserved (p1 p2 : Byte) : Bool :=
  p1.extractLsb' 3 4 != 0xF#4 || !p2.getLsbD 3 || p2.getLsbD 4 || (p2.getLsbD 7 && p2.extractLsb' 0 3 == 0#3) ||
    !p1.getLsbD 2 || p2.extractLsb' 5 2 == 3#2

/-- The bytes after a 62H escape (30_encoding.md R65, R70, R77). R65 speaks of 64-bit mode only; that 62H is an EVEX escape in real-address and virtual-8086 mode too, whatever the inverted R and X hold, is the model's choice (DESIGN CHOICE, log 21). -/
def decodeEvex (ps : List LegacyPrefix) (bad : Bool) : List Byte → Decoded
  | [] => .incomplete
  | p0 :: bs =>
    if p0.extractLsb' 0 4 ≠ 2#4 then .notThisFamily
    else
      match bs with
      | [] => .incomplete
      | p1 :: bs =>
        if p1.extractLsb' 0 2 ≠ 1#2 then .notThisFamily
        else
          match bs with
          | [] => .incomplete
          | p2 :: bs =>
            match bs with
            | [] => .incomplete
            | op :: bs =>
              if op ≠ 0x18#8 ∧ op ≠ 0x19#8 ∧ op ≠ 0x1A#8 ∧ op ≠ 0x1B#8 then .notThisFamily
              else
                let r := !p0.getLsbD 7
                let x := !p0.getLsbD 6
                let b := !p0.getLsbD 5
                let r' := !p0.getLsbD 4
                match takeModRM x b bs with
                | none => .incomplete
                | some (reg, rm, rest) =>
                  answer bad (evexReserved p1 p2)
                    (evexRow op (p1.getLsbD 7) (p2.extractLsb' 5 2) ps (BitVec.cons r' (BitVec.cons r reg))
                      ⟨p2.extractLsb' 0 3, p2.getLsbD 7⟩ x b rm) rest

/-- Decode the bytes that stand at the instruction pointer, in increasing address order (30_encoding.md R60, R74, R77). `mode64` is 64-bit mode; without it the bytes are read as logs 11 and 21 say. -/
def decodeIn (mode64 : Bool) (bytes : List Byte) : Decoded :=
  let f := scanFront mode64 bytes
  match f.rest with
  | [] => .incomplete
  | e :: bs =>
    if e = 0xC4#8 then decodeVex mode64 f.ps f.bad bs
    else if e = 0x62#8 then decodeEvex f.ps f.bad bs
    else .notThisFamily

/-- Decoding in 64-bit mode. -/
def decode (bytes : List Byte) : Decoded := decodeIn true bytes

/-- The most bytes an instruction may have (30_encoding.md R74). -/
def maxLength : Nat := 15

/-- The first `n` bytes of a number, the least significant first. -/
def bytesOfNat : Nat → Nat → List Byte
  | 0, _ => []
  | n + 1, w => BitVec.ofNat 8 w :: bytesOfNat n (w / 256)

/-- The instruction read from the table word `w` of `nbits` bits; every bit above `nbits` is 0. -/
def decodeTableWord (nbits w : Nat) : Option Instr :=
  match decode (bytesOfNat maxLength (w % 2 ^ nbits)) with
  | .instr i _ => some i
  | _ => none

/-! ## Encoding -/

/-- The byte of a legacy prefix (30_encoding.md R61). -/
def LegacyPrefix.byte : LegacyPrefix → Byte
  | .es => 0x26#8
  | .cs => 0x2E#8
  | .ss => 0x36#8
  | .ds => 0x3E#8
  | .fs => 0x64#8
  | .gs => 0x65#8
  | .addr32 => 0x67#8

/-- A ModRM or SIB byte from its three fields (30_encoding.md R68). -/
def fieldsByte (hi : BitVec 2) (mid lo : BitVec 3) : Byte := hi ++ mid ++ lo

/-- The four bytes of a displacement, least significant first (30_encoding.md R72). -/
def disp32Bytes (v : BitVec 32) : List Byte :=
  [v.extractLsb' 0 8, v.extractLsb' 8 8, v.extractLsb' 16 8, v.extractLsb' 24 8]

/-- ModRM.mod for a displacement of each size (30_encoding.md R72). -/
def Disp.md : Disp → BitVec 2
  | .absent => 0#2
  | .disp8 _ => 1#2
  | .disp32 _ => 2#2

/-- The bytes of a displacement. -/
def Disp.bytes : Disp → List Byte
  | .absent => []
  | .disp8 v => [v]
  | .disp32 v => disp32Bytes v

/-- The fields an r/m operand puts into the encoding: the extension bits X and B (un-inverted), mod, rm, and the bytes after ModRM. A bit the operand ignores is encoded as 0 (its inverted bit as 1). -/
structure RmFields where
  x : Bool
  b : Bool
  md : BitVec 2
  rm : BitVec 3
  tail : List Byte
  deriving DecidableEq, Repr

/-- 30_encoding.md R68, R69, R72 read from operand to fields. -/
def MemOperand.fields : MemOperand → RmFields
  | .base b d => ⟨false, b.getLsbD 3, d.md, b.extractLsb' 0 3, d.bytes⟩
  | .ripRel v => ⟨false, false, 0#2, 5#3, disp32Bytes v⟩
  | .sib ss i b d => ⟨i.getLsbD 3, b.getLsbD 3, d.md, 4#3, fieldsByte ss (i.extractLsb' 0 3) (b.extractLsb' 0 3) :: d.bytes⟩
  | .sibNoBase ss i v => ⟨i.getLsbD 3, false, 0#2, 4#3, fieldsByte ss (i.extractLsb' 0 3) 5#3 :: disp32Bytes v⟩

/-- A VEX register source `{B, rm}`; X is ignored (30_encoding.md R69). -/
def vexRegFields (s : BitVec 4) : RmFields := ⟨false, s.getLsbD 3, 3#2, s.extractLsb' 0 3, []⟩

/-- An EVEX source: register `{X, B, rm}`, or memory (30_encoding.md R70). -/
def Source.fields : Source → RmFields
  | .reg s => ⟨s.getLsbD 4, s.getLsbD 3, 3#2, s.extractLsb' 0 3, []⟩
  | .mem m => m.fields

/-- VEX byte 1: inverted R, X, B and the map 00010b (30_encoding.md R63). -/
def vexByte1 (r x b : Bool) : Byte := BitVec.ofBool (!r) ++ BitVec.ofBool (!x) ++ BitVec.ofBool (!b) ++ 2#5

/-- VEX byte 2: W = 0, vvvv = 1111b, L, pp = 01b (30_encoding.md R63). -/
def vexByte2 (l : Bool) : Byte := 0#1 ++ 0xF#4 ++ BitVec.ofBool l ++ 1#2

/-- A VEX form's bytes (30_encoding.md R60, R63, R69). -/
def encodeVex (ps : List LegacyPrefix) (l : Bool) (op : Byte) (d : BitVec 4) (f : RmFields) : List Byte :=
  ps.map LegacyPrefix.byte ++
    0xC4#8 :: vexByte1 (d.getLsbD 3) f.x f.b :: vexByte2 l :: op :: fieldsByte f.md (d.extractLsb' 0 3) f.rm :: f.tail

/-- EVEX byte P0: inverted R, X, B, R', then 00b and the map 10b (30_encoding.md R65). -/
def evexP0 (r x b r' : Bool) : Byte :=
  BitVec.ofBool (!r) ++ BitVec.ofBool (!x) ++ BitVec.ofBool (!b) ++ BitVec.ofBool (!r') ++ 0#2 ++ 2#2

/-- EVEX byte P1: W, vvvv = 1111b, the fixed 1, pp = 01b (30_encoding.md R65). -/
def evexP1 (w : Bool) : Byte := BitVec.ofBool w ++ 0xF#4 ++ 1#1 ++ 1#2

/-- EVEX byte P2: z, L'L, b = 0, inverted V' = 1, aaa (30_encoding.md R65). -/
def evexP2 (k : Masking) (ll : BitVec 2) : Byte := BitVec.ofBool k.z ++ ll ++ 0#1 ++ 1#1 ++ k.aaa

/-- An EVEX form's bytes (30_encoding.md R60, R65, R70). -/
def encodeEvex (ps : List LegacyPrefix) (w : Bool) (ll : BitVec 2) (op : Byte) (d : BitVec 5) (k : Masking)
    (f : RmFields) : List Byte :=
  ps.map LegacyPrefix.byte ++
    0x62#8 :: evexP0 (d.getLsbD 3) f.x f.b (d.getLsbD 4) :: evexP1 w :: evexP2 k ll :: op ::
      fieldsByte f.md (d.extractLsb' 0 3) f.rm :: f.tail

/-- The bytes of an instruction: one line for each row of the opcode table (30_encoding.md R75). -/
def encode : Instr → List Byte
  | .vexSsXmmMem ps d m => encodeVex ps false 0x18#8 d m.fields
  | .vexSsYmmMem ps d m => encodeVex ps true 0x18#8 d m.fields
  | .vexSdYmmMem ps d m => encodeVex ps true 0x19#8 d m.fields
  | .vexF128YmmMem ps d m => encodeVex ps true 0x1A#8 d m.fields
  | .vexSsXmmReg ps d s => encodeVex ps false 0x18#8 d (vexRegFields s)
  | .vexSsYmmReg ps d s => encodeVex ps true 0x18#8 d (vexRegFields s)
  | .vexSdYmmReg ps d s => encodeVex ps true 0x19#8 d (vexRegFields s)
  | .evexSdYmm ps d k src => encodeEvex ps true 1#2 0x19#8 d k src.fields
  | .evexSdZmm ps d k src => encodeEvex ps true 2#2 0x19#8 d k src.fields
  | .evexF32x2Ymm ps d k src => encodeEvex ps false 1#2 0x19#8 d k src.fields
  | .evexF32x2Zmm ps d k src => encodeEvex ps false 2#2 0x19#8 d k src.fields
  | .evexSsXmm ps d k src => encodeEvex ps false 0#2 0x18#8 d k src.fields
  | .evexSsYmm ps d k src => encodeEvex ps false 1#2 0x18#8 d k src.fields
  | .evexSsZmm ps d k src => encodeEvex ps false 2#2 0x18#8 d k src.fields
  | .evexF32x4Ymm ps d k m => encodeEvex ps false 1#2 0x1A#8 d k m.fields
  | .evexF32x4Zmm ps d k m => encodeEvex ps false 2#2 0x1A#8 d k m.fields
  | .evexF64x2Ymm ps d k m => encodeEvex ps true 1#2 0x1A#8 d k m.fields
  | .evexF64x2Zmm ps d k m => encodeEvex ps true 2#2 0x1A#8 d k m.fields
  | .evexF32x8Zmm ps d k m => encodeEvex ps false 2#2 0x1B#8 d k m.fields
  | .evexF64x4Zmm ps d k m => encodeEvex ps true 2#2 0x1B#8 d k m.fields

end Sys2Proof
end

