-- ==== Sys2Proof/WellFormed.lean ====
section
/-! DEFINITION. Which terms of `Instr` the encoding can express: the operand shapes of 30_encoding.md R72 and 20_memory.md R46, the masking fields of R81, and the length limit of R74. -/

namespace Sys2Proof

/-- A base register with field 100b needs a SIB byte, and with field 101b a displacement (20_memory.md R46, 30_encoding.md R72). -/
def MemOperand.wellFormed : MemOperand → Bool
  | .base b d => b.extractLsb' 0 3 != 4#3 && (d != .absent || b.extractLsb' 0 3 != 5#3)
  | .ripRel _ => true
  | .sib _ _ b d => d != .absent || b.extractLsb' 0 3 != 5#3
  | .sibNoBase _ _ _ => true

/-- A register source is always expressible. -/
def Source.wellFormed : Source → Bool
  | .reg _ => true
  | .mem m => m.wellFormed

/-- Zeroing needs a writemask: z = 1 with aaa = 000b is reserved (30_encoding.md R81). -/
def Masking.wellFormed (k : Masking) : Bool := !(k.z && k.aaa == 0#3)

/-- The operands of an instruction are expressible. -/
def Instr.operandsWellFormed : Instr → Bool
  | .vexSsXmmMem _ _ m => m.wellFormed
  | .vexSsYmmMem _ _ m => m.wellFormed
  | .vexSdYmmMem _ _ m => m.wellFormed
  | .vexF128YmmMem _ _ m => m.wellFormed
  | .vexSsXmmReg _ _ _ => true
  | .vexSsYmmReg _ _ _ => true
  | .vexSdYmmReg _ _ _ => true
  | .evexSdYmm _ _ k src => k.wellFormed && src.wellFormed
  | .evexSdZmm _ _ k src => k.wellFormed && src.wellFormed
  | .evexF32x2Ymm _ _ k src => k.wellFormed && src.wellFormed
  | .evexF32x2Zmm _ _ k src => k.wellFormed && src.wellFormed
  | .evexSsXmm _ _ k src => k.wellFormed && src.wellFormed
  | .evexSsYmm _ _ k src => k.wellFormed && src.wellFormed
  | .evexSsZmm _ _ k src => k.wellFormed && src.wellFormed
  | .evexF32x4Ymm _ _ k m => k.wellFormed && m.wellFormed
  | .evexF32x4Zmm _ _ k m => k.wellFormed && m.wellFormed
  | .evexF64x2Ymm _ _ k m => k.wellFormed && m.wellFormed
  | .evexF64x2Zmm _ _ k m => k.wellFormed && m.wellFormed
  | .evexF32x8Zmm _ _ k m => k.wellFormed && m.wellFormed
  | .evexF64x4Zmm _ _ k m => k.wellFormed && m.wellFormed

/-- An instruction the machine can hold in memory and run: expressible operands, at most 15 bytes (30_encoding.md R74). -/
def Instr.wellFormed (i : Instr) : Bool := i.operandsWellFormed && decide (i.length ≤ maxLength)

end Sys2Proof
end

