-- ==== Sys2Proof/Machine/Operands.lean ====
section
/-! DEFINITION. Every operand form of the family: the effective address of a memory operand (20_memory.md R46, R48), its segment and linear address (R47), the read of 4, 8, 16 or 32 bytes (R42, R47), a register source (10_state.md R22), and the two helpers that make the destination's value (00_scope.md R13, R14). -/

namespace Sys2Proof.Machine

/-! ## Addresses -/

/-- The displacement `D` of 20_memory.md R46: a 1-byte one is sign-extended and multiplied by `scale`, the factor N of 30_encoding.md R73 (1 under VEX); a 4-byte one is sign-extended and never scaled. -/
def dispValue (scale : Nat) : Disp → Word64
  | .absent => 0#64
  | .disp8 v => v.signExtend 64 * BitVec.ofNat 64 scale
  | .disp32 v => v.signExtend 64

/-- The index term `I` of 20_memory.md R46: index number 0100b means no index. -/
def State.indexTerm (s : State) (scale : BitVec 2) (index : BitVec 4) : Word64 :=
  if index = 4#4 then 0#64 else s.readX index <<< scale.toNat

/-- The effective address with 64-bit address size, modulo 2^64 (20_memory.md R46). -/
def State.address64 (s : State) (nextpc : Word64) (scale : Nat) : MemOperand → Word64
  | .base b d => s.readX b + dispValue scale d
  | .ripRel v => nextpc + v.signExtend 64
  | .sib ss index b d => s.readX b + s.indexTerm ss index + dispValue scale d
  | .sibNoBase ss index v => s.indexTerm ss index + v.signExtend 64

/-- The address-size byte 67H is present (30_encoding.md R61). -/
def addressSize32 (ps : List LegacyPrefix) : Bool := ps.contains .addr32

/-- The effective address (20_memory.md R46). With 67H it is taken modulo 2^32 and zero-extended (R48); the sum of the registers' low halves modulo 2^32 is the low half of the sum. -/
def State.effectiveAddress (s : State) (ps : List LegacyPrefix) (nextpc : Word64) (scale : Nat) (m : MemOperand) : Word64 :=
  let a := s.address64 nextpc scale m
  if addressSize32 ps then (a.setWidth 32).setWidth 64 else a

/-- The segments a data access can have in 64-bit mode (20_memory.md R47). -/
inductive Segment where
  | ds
  | ss
  | fs
  | gs
  deriving DecidableEq, Repr

/-- The last FS or GS override; the other overrides have no effect in 64-bit mode (30_encoding.md R61; log 9). -/
def segmentOverride : List LegacyPrefix → Option Segment
  | [] => none
  | p :: ps =>
    match segmentOverride ps with
    | some g => some g
    | none => if p = .fs then some .fs else if p = .gs then some .gs else none

/-- The base register of a memory operand, if it has one (20_memory.md R46). -/
def baseRegister : MemOperand → Option (BitVec 4)
  | .base b _ => some b
  | .ripRel _ => none
  | .sib _ _ b _ => some b
  | .sibNoBase _ _ _ => none

/-- SS when the base register is number 4 (RSP) or 5 (RBP), otherwise DS (20_memory.md R47). -/
def defaultSegment (m : MemOperand) : Segment :=
  if baseRegister m = some 4#4 ∨ baseRegister m = some 5#4 then .ss else .ds

/-- The segment of a memory operand (20_memory.md R47). -/
def segmentOf (ps : List LegacyPrefix) (m : MemOperand) : Segment :=
  match segmentOverride ps with
  | some g => g
  | none => defaultSegment m

/-- `base(seg)`: only FS and GS have a base (20_memory.md R47). -/
def State.segmentBase (s : State) : Segment → Word64
  | .ds => 0#64
  | .ss => 0#64
  | .fs => s.fsBase
  | .gs => s.gsBase

/-- The linear address of a memory operand (20_memory.md R47). -/
def State.linearAddress (s : State) (ps : List LegacyPrefix) (nextpc : Word64) (scale : Nat) (m : MemOperand) : Word64 :=
  s.segmentBase (segmentOf ps m) + s.effectiveAddress ps nextpc scale m

/-! ## Reading the source -/

/-- `MemRead(seg, EA, n)` for `w` = 8n bits at the linear address `la` (20_memory.md R47), in the order of 60_exceptions.md R152: canonical, page fault, alignment (R150), then the bytes; device memory is refused (R44). -/
def State.memRead (s : State) (w : Nat) (seg : Segment) (la : Word64) : Except Stop (BitVec w) :=
  if !s.allCanonical la (w / 8) then raise (if seg = .ss then .ss else .gp)
  else
    match s.firstPageFault .read la (w / 8) with
    | some f => raise f
    | none =>
      if s.acEnabled && la.toNat % (w / 8) != 0 then
        (if w / 8 ≤ 8 then raise .ac else refuse .wideAlignmentCheck)
      else if s.touchesDevice .read la (w / 8) then refuse .deviceMemory
      else .ok (s.valueAt w la)

/-- The value `SRC` of the second operand: the low `w` bits of a vector register (10_state.md R22), or the whole memory operand whatever the writemask holds (20_memory.md R43). -/
def State.readSource (s : State) (w : Nat) (ps : List LegacyPrefix) (nextpc : Word64) (scale : Nat) :
    Source → Except Stop (BitVec w)
  | .reg i => .ok ((s.readV i).setWidth w)
  | .mem m => s.memRead w (segmentOf ps m) (s.linearAddress ps nextpc scale m)

/-! ## The destination's value -/

/-- `BroadcastVEX(s, esize, VL)` (00_scope.md R13). -/
def broadcastVex (esize vl : Nat) (src : BitVec esize) : VReg := assemble 512 esize (fun _ => src) (vl / esize)

/-- `BroadcastEVEX(old, s, esize, T, VL, nomask, m, zeroing)` (00_scope.md R14). -/
def broadcastEvex {w : Nat} (old : VReg) (src : BitVec w) (esize t vl : Nat) (nomask : Bool) (m : Word64)
    (zeroing : Bool) : VReg :=
  assemble 512 esize
    (fun j =>
      if nomask || m.getLsbD j then src.extractLsb' (j % t * esize) esize
      else if zeroing then 0#esize
      else old.extractLsb' (j * esize) esize)
    (vl / esize)

/-- `BroadcastEVEX` with the masking arguments of 41_evex_scalar_broadcast.md: nomask is aaa = 000b, m is K[aaa], zeroing is z = 1; `old` is the destination before the write (decision D15). -/
def State.maskedBroadcast {w : Nat} (s : State) (esize t vl : Nat) (d : BitVec 5) (k : Masking) (src : BitVec w) : VReg :=
  broadcastEvex (s.readV d) src esize t vl (k.aaa == 0#3) (s.readK k.aaa) k.z

/-- What every form does: test the enabling conditions, take the source value, write the destination, advance `pc` (40_vex_forms.md to 42_evex_tuple_broadcast.md, the common items). `w` is the source's width, `scale` the factor N of 30_encoding.md R73, `len` the instruction's length, `value` the destination's new value. -/
def broadcastForm (e : Scheme) (needs : List Feature) (w scale : Nat) (ps : List LegacyPrefix) (d : BitVec 5)
    (src : Source) (len : Nat) (value : BitVec w → VReg) (s : State) : Host.Outcome State Fault Refusal :=
  finish <|
    match checkEnabled e needs s with
    | .error stop => .error stop
    | .ok () =>
      match s.readSource w ps (s.pc + BitVec.ofNat 64 len) scale src with
      | .error stop => .error stop
      | .ok v => .ok (retire s d (value v) len)

/-- A VEX form: no writemask, disp8 not scaled (30_encoding.md R73). -/
def vexForm (needs : List Feature) (esize vl : Nat) (ps : List LegacyPrefix) (d : BitVec 4) (src : Source) (len : Nat)
    (s : State) : Host.Outcome State Fault Refusal :=
  broadcastForm .vex needs esize 1 ps (d.setWidth 5) src len (broadcastVex esize vl) s

/-- An EVEX form with `t` elements in the tuple: the factor N is the size in bytes of the memory operand (30_encoding.md R73). -/
def evexForm (needs : List Feature) (esize t vl : Nat) (ps : List LegacyPrefix) (d : BitVec 5) (k : Masking)
    (src : Source) (len : Nat) (s : State) : Host.Outcome State Fault Refusal :=
  broadcastForm .evex needs (t * esize) (t * esize / 8) ps d src len (s.maskedBroadcast esize t vl d k) s

end Sys2Proof.Machine
end

