-- ==== Sys2Proof/Machine/EvexScalarForms.lean ====
section
/-! DEFINITION. The meanings of the five EVEX-encoded scalar broadcasts (41_evex_scalar_broadcast.md R110 to R114; rows 12, 13, 14, 8 and 9 of 30_encoding.md R75). -/

namespace Sys2Proof.Machine

/-- Row 12, 41_evex_scalar_broadcast.md R110: VBROADCASTSS xmm1 with mask, xmm2/m32 (AVX512VL, AVX512F). -/
def execEvexSsXmm (ps : List LegacyPrefix) (d : BitVec 5) (k : Masking) (src : Source) (s : State) : Host.Outcome State Fault Refusal :=
  evexForm [.avx512vl, .avx512f] 32 1 128 ps d k src (Instr.evexSsXmm ps d k src).length s

/-- Row 13, 41_evex_scalar_broadcast.md R111: VBROADCASTSS ymm1 with mask, xmm2/m32 (AVX512VL, AVX512F). -/
def execEvexSsYmm (ps : List LegacyPrefix) (d : BitVec 5) (k : Masking) (src : Source) (s : State) : Host.Outcome State Fault Refusal :=
  evexForm [.avx512vl, .avx512f] 32 1 256 ps d k src (Instr.evexSsYmm ps d k src).length s

/-- Row 14, 41_evex_scalar_broadcast.md R112: VBROADCASTSS zmm1 with mask, xmm2/m32 (AVX512F). -/
def execEvexSsZmm (ps : List LegacyPrefix) (d : BitVec 5) (k : Masking) (src : Source) (s : State) : Host.Outcome State Fault Refusal :=
  evexForm [.avx512f] 32 1 512 ps d k src (Instr.evexSsZmm ps d k src).length s

/-- Row 8, 41_evex_scalar_broadcast.md R113: VBROADCASTSD ymm1 with mask, xmm2/m64 (AVX512VL, AVX512F). -/
def execEvexSdYmm (ps : List LegacyPrefix) (d : BitVec 5) (k : Masking) (src : Source) (s : State) : Host.Outcome State Fault Refusal :=
  evexForm [.avx512vl, .avx512f] 64 1 256 ps d k src (Instr.evexSdYmm ps d k src).length s

/-- Row 9, 41_evex_scalar_broadcast.md R114: VBROADCASTSD zmm1 with mask, xmm2/m64 (AVX512F). -/
def execEvexSdZmm (ps : List LegacyPrefix) (d : BitVec 5) (k : Masking) (src : Source) (s : State) : Host.Outcome State Fault Refusal :=
  evexForm [.avx512f] 64 1 512 ps d k src (Instr.evexSdZmm ps d k src).length s

end Sys2Proof.Machine
end

