-- ==== Sys2Proof/Machine/EvexTupleForms.lean ====
section
/-! DEFINITION. The meanings of the eight EVEX-encoded tuple broadcasts (42_evex_tuple_broadcast.md R120 to R127; rows 10, 11 and 15 to 20 of 30_encoding.md R75). -/

namespace Sys2Proof.Machine

/-- Row 10, 42_evex_tuple_broadcast.md R120: VBROADCASTF32X2 ymm1 with mask, xmm2/m64 (AVX512VL, AVX512DQ). -/
def execEvexF32x2Ymm (ps : List LegacyPrefix) (d : BitVec 5) (k : Masking) (src : Source) (s : State) : Host.Outcome State Fault Refusal :=
  evexForm [.avx512vl, .avx512dq] 32 2 256 ps d k src (Instr.evexF32x2Ymm ps d k src).length s

/-- Row 11, 42_evex_tuple_broadcast.md R121: VBROADCASTF32X2 zmm1 with mask, xmm2/m64 (AVX512DQ). -/
def execEvexF32x2Zmm (ps : List LegacyPrefix) (d : BitVec 5) (k : Masking) (src : Source) (s : State) : Host.Outcome State Fault Refusal :=
  evexForm [.avx512dq] 32 2 512 ps d k src (Instr.evexF32x2Zmm ps d k src).length s

/-- Row 15, 42_evex_tuple_broadcast.md R122: VBROADCASTF32X4 ymm1 with mask, m128 (AVX512VL, AVX512F). -/
def execEvexF32x4Ymm (ps : List LegacyPrefix) (d : BitVec 5) (k : Masking) (m : MemOperand) (s : State) : Host.Outcome State Fault Refusal :=
  evexForm [.avx512vl, .avx512f] 32 4 256 ps d k (.mem m) (Instr.evexF32x4Ymm ps d k m).length s

/-- Row 16, 42_evex_tuple_broadcast.md R123: VBROADCASTF32X4 zmm1 with mask, m128 (AVX512F). -/
def execEvexF32x4Zmm (ps : List LegacyPrefix) (d : BitVec 5) (k : Masking) (m : MemOperand) (s : State) : Host.Outcome State Fault Refusal :=
  evexForm [.avx512f] 32 4 512 ps d k (.mem m) (Instr.evexF32x4Zmm ps d k m).length s

/-- Row 17, 42_evex_tuple_broadcast.md R124: VBROADCASTF64X2 ymm1 with mask, m128; bits 511:256 are zeroed (decision D16) (AVX512VL, AVX512DQ). -/
def execEvexF64x2Ymm (ps : List LegacyPrefix) (d : BitVec 5) (k : Masking) (m : MemOperand) (s : State) : Host.Outcome State Fault Refusal :=
  evexForm [.avx512vl, .avx512dq] 64 2 256 ps d k (.mem m) (Instr.evexF64x2Ymm ps d k m).length s

/-- Row 18, 42_evex_tuple_broadcast.md R125: VBROADCASTF64X2 zmm1 with mask, m128 (AVX512DQ). -/
def execEvexF64x2Zmm (ps : List LegacyPrefix) (d : BitVec 5) (k : Masking) (m : MemOperand) (s : State) : Host.Outcome State Fault Refusal :=
  evexForm [.avx512dq] 64 2 512 ps d k (.mem m) (Instr.evexF64x2Zmm ps d k m).length s

/-- Row 19, 42_evex_tuple_broadcast.md R126: VBROADCASTF32X8 zmm1 with mask, m256 (AVX512DQ). -/
def execEvexF32x8Zmm (ps : List LegacyPrefix) (d : BitVec 5) (k : Masking) (m : MemOperand) (s : State) : Host.Outcome State Fault Refusal :=
  evexForm [.avx512dq] 32 8 512 ps d k (.mem m) (Instr.evexF32x8Zmm ps d k m).length s

/-- Row 20, 42_evex_tuple_broadcast.md R127: VBROADCASTF64X4 zmm1 with mask, m256 (AVX512F). -/
def execEvexF64x4Zmm (ps : List LegacyPrefix) (d : BitVec 5) (k : Masking) (m : MemOperand) (s : State) : Host.Outcome State Fault Refusal :=
  evexForm [.avx512f] 64 4 512 ps d k (.mem m) (Instr.evexF64x4Zmm ps d k m).length s

end Sys2Proof.Machine
end

