-- ==== Sys2Proof/Machine/VexForms.lean ====
section
/-! DEFINITION. The meanings of the seven VEX-encoded forms (40_vex_forms.md R101 to R107; rows 1 to 7 of 30_encoding.md R75). -/

namespace Sys2Proof.Machine

/-- Row 1, 40_vex_forms.md R101: VBROADCASTSS xmm1, m32 (AVX). -/
def execVexSsXmmMem (ps : List LegacyPrefix) (d : BitVec 4) (m : MemOperand) (s : State) : Host.Outcome State Fault Refusal :=
  vexForm [.avx] 32 128 ps d (.mem m) (Instr.vexSsXmmMem ps d m).length s

/-- Row 2, 40_vex_forms.md R102: VBROADCASTSS ymm1, m32 (AVX). -/
def execVexSsYmmMem (ps : List LegacyPrefix) (d : BitVec 4) (m : MemOperand) (s : State) : Host.Outcome State Fault Refusal :=
  vexForm [.avx] 32 256 ps d (.mem m) (Instr.vexSsYmmMem ps d m).length s

/-- Row 3, 40_vex_forms.md R103: VBROADCASTSD ymm1, m64 (AVX). -/
def execVexSdYmmMem (ps : List LegacyPrefix) (d : BitVec 4) (m : MemOperand) (s : State) : Host.Outcome State Fault Refusal :=
  vexForm [.avx] 64 256 ps d (.mem m) (Instr.vexSdYmmMem ps d m).length s

/-- Row 4, 40_vex_forms.md R104: VBROADCASTF128 ymm1, m128 (AVX). -/
def execVexF128YmmMem (ps : List LegacyPrefix) (d : BitVec 4) (m : MemOperand) (s : State) : Host.Outcome State Fault Refusal :=
  vexForm [.avx] 128 256 ps d (.mem m) (Instr.vexF128YmmMem ps d m).length s

/-- Row 5, 40_vex_forms.md R105: VBROADCASTSS xmm1, xmm2 (AVX2). -/
def execVexSsXmmReg (ps : List LegacyPrefix) (d src : BitVec 4) (s : State) : Host.Outcome State Fault Refusal :=
  vexForm [.avx2] 32 128 ps d (.reg (src.setWidth 5)) (Instr.vexSsXmmReg ps d src).length s

/-- Row 6, 40_vex_forms.md R106: VBROADCASTSS ymm1, xmm2 (AVX2). -/
def execVexSsYmmReg (ps : List LegacyPrefix) (d src : BitVec 4) (s : State) : Host.Outcome State Fault Refusal :=
  vexForm [.avx2] 32 256 ps d (.reg (src.setWidth 5)) (Instr.vexSsYmmReg ps d src).length s

/-- Row 7, 40_vex_forms.md R107: VBROADCASTSD ymm1, xmm2 (AVX2). -/
def execVexSdYmmReg (ps : List LegacyPrefix) (d src : BitVec 4) (s : State) : Host.Outcome State Fault Refusal :=
  vexForm [.avx2] 64 256 ps d (.reg (src.setWidth 5)) (Instr.vexSdYmmReg ps d src).length s

end Sys2Proof.Machine
end

