-- ==== Sys2Proof/Machine/Dispatch.lean ====
section
/-! DEFINITION. One arm for each row of the opcode table (30_encoding.md R75), each a direct call of the row's meaning. -/

namespace Sys2Proof.Machine

/-- Run one decoded instruction. -/
def exec (i : Instr) (s : State) : Host.Outcome State Fault Refusal :=
  match i with
  | .vexSsXmmMem ps d m => Sys2Proof.Machine.execVexSsXmmMem ps d m s
  | .vexSsYmmMem ps d m => Sys2Proof.Machine.execVexSsYmmMem ps d m s
  | .vexSdYmmMem ps d m => Sys2Proof.Machine.execVexSdYmmMem ps d m s
  | .vexF128YmmMem ps d m => Sys2Proof.Machine.execVexF128YmmMem ps d m s
  | .vexSsXmmReg ps d src => Sys2Proof.Machine.execVexSsXmmReg ps d src s
  | .vexSsYmmReg ps d src => Sys2Proof.Machine.execVexSsYmmReg ps d src s
  | .vexSdYmmReg ps d src => Sys2Proof.Machine.execVexSdYmmReg ps d src s
  | .evexSdYmm ps d k src => Sys2Proof.Machine.execEvexSdYmm ps d k src s
  | .evexSdZmm ps d k src => Sys2Proof.Machine.execEvexSdZmm ps d k src s
  | .evexF32x2Ymm ps d k src => Sys2Proof.Machine.execEvexF32x2Ymm ps d k src s
  | .evexF32x2Zmm ps d k src => Sys2Proof.Machine.execEvexF32x2Zmm ps d k src s
  | .evexSsXmm ps d k src => Sys2Proof.Machine.execEvexSsXmm ps d k src s
  | .evexSsYmm ps d k src => Sys2Proof.Machine.execEvexSsYmm ps d k src s
  | .evexSsZmm ps d k src => Sys2Proof.Machine.execEvexSsZmm ps d k src s
  | .evexF32x4Ymm ps d k m => Sys2Proof.Machine.execEvexF32x4Ymm ps d k m s
  | .evexF32x4Zmm ps d k m => Sys2Proof.Machine.execEvexF32x4Zmm ps d k m s
  | .evexF64x2Ymm ps d k m => Sys2Proof.Machine.execEvexF64x2Ymm ps d k m s
  | .evexF64x2Zmm ps d k m => Sys2Proof.Machine.execEvexF64x2Zmm ps d k m s
  | .evexF32x8Zmm ps d k m => Sys2Proof.Machine.execEvexF32x8Zmm ps d k m s
  | .evexF64x4Zmm ps d k m => Sys2Proof.Machine.execEvexF64x4Zmm ps d k m s

end Sys2Proof.Machine
end

