-- ==== Sys2Proof/Machine/Fetch.lean ====
section
/-! DEFINITION. Fetching an instruction: its bytes come one by one, in increasing address order, from the same linear space as data with an execute access (30_encoding.md R60, 20_memory.md R54), and only as many as the instruction needs; then they are decoded (30_encoding.md R77). -/

namespace Sys2Proof.Machine

/-- One code byte: #GP(0) where the address is not canonical, the page fault of `Translate`, device memory refused (60_exceptions.md R152 item 1, 20_memory.md R44, R54). -/
def State.fetchByte (s : State) (la : Word64) : Except Stop Byte :=
  if !canonical s.cfg.vaBits la then raise .gp
  else
    match s.translate .fetch la with
    | .pageFault code => raise (.pf la code)
    | .mapped pa device => if device then refuse .deviceMemory else .ok (s.mem.read pa.toNat)

/-- At most `n` code bytes from `la` on, up to the first that cannot be fetched, and why it cannot. -/
def State.fetchWindow (s : State) : Nat → Word64 → List Byte × Option Stop
  | 0, _ => ([], none)
  | n + 1, la =>
    match s.fetchByte la with
    | .error stop => ([], some stop)
    | .ok b => let r := s.fetchWindow n (la + 1#64); (b :: r.1, r.2)

/-- The instruction at `pc`. An instruction that does not end within 15 bytes raises #GP(0), one that runs into a byte that cannot be fetched stops with that byte's reason (60_exceptions.md R152 item 1); a reserved encoding raises #UD (R144); bytes outside the family are refused (30_encoding.md R77). -/
def State.fetchInstr (s : State) : Except Stop Instr :=
  match s.mode.rule with
  | .refused => refuse .modeNotSpecified
  | _ =>
    let window := s.fetchWindow maxLength s.pc
    match decodeIn (s.mode == .bits64) window.1 with
    | .instr i _ => .ok i
    | .undefinedOpcode => raise .ud
    | .notThisFamily => refuse .notThisFamily
    | .incomplete =>
      match window.2 with
      | some stop => .error stop
      | none => raise .gp

/-- Where code byte `la` lies in memory: through `Translate` if it allows the fetch, else at `la` itself. -/
def State.codeAddress (s : State) (la : Word64) : Nat :=
  match s.translate .fetch la with
  | .mapped pa _ => pa.toNat
  | .pageFault _ => la.toNat

/-- Memory with the bytes placed where code from `la` on is fetched. -/
def State.placeCode (s : State) : Word64 → List Byte → Memory → Memory
  | _, [], m => m
  | la, b :: bs, m => s.placeCode (la + 1#64) bs (m.write (s.codeAddress la) b)

end Sys2Proof.Machine
end

