-- ==== Sys2Proof/Machine/Step.lean ====
section
/-! DEFINITION. One step of the machine: fetch and decode at `pc`, then run the instruction, which advances `pc` itself (INDEX.md "Reading order", 10_state.md R25). `withFetchWord` stands for the load of a program from outside (70_reset_and_hazards.md R173; log 12). -/

namespace Sys2Proof.Machine

/-- One step. -/
def step (s : State) : Host.Outcome State Fault Refusal :=
  match s.fetchInstr with
  | .ok i => exec i s
  | .error stop => stop.outcome

/-- `s` with the instruction whose bits are `w` (`nbits` of them, zeros above, 15 bytes in all) stored where `step` fetches its next instruction. -/
def State.withFetchWord (s : State) (nbits w : Nat) : State :=
  s.setMem (s.placeCode s.pc (bytesOfNat maxLength (w % 2 ^ nbits)) s.mem)

end Sys2Proof.Machine
end

