-- ==== Sys2Proof/Machine/Run.lean ====
section
/-! DEFINITION. A run of a program and its end (70_reset_and_hazards.md R170, R173, decision D28): the program's bytes placed at an address, the launch state with `pc` there, and the step repeated until `pc` stands just past the last byte after a completed instruction, or a fault or a refusal ends the run. -/

namespace Sys2Proof.Machine

/-- The launch of the program `code` at `start`: its bytes placed where the fetch reads, `pc` at the first (R173; log 12). -/
def State.launch (s : State) (start : Word64) (code : List Byte) : State :=
  (s.setMem (s.placeCode start code s.mem)).setPc start

/-- How a run stands. Only `final` is a final state (R173). -/
inductive RunEnd where
  /-- the steps allowed are used up and the run has not ended -/
  | running (s : State)
  /-- `pc` = start + length after a completed instruction -/
  | final (s : State)
  /-- an instruction raised an exception: the state it leaves is not final -/
  | faulted (f : Fault) (s : State)
  /-- the model refused: the state is not final -/
  | refused (r : Refusal) (s : State)
  deriving DecidableEq, Repr

/-- The address just past a program, modulo 2^64 (10_state.md R25). -/
def pastEnd (start : Word64) (len : Nat) : Word64 := start + BitVec.ofNat 64 len

/-- At most `n` steps of the run of a program of `len` bytes at `start` (R173, 60_exceptions.md R154). -/
def runProgram (start : Word64) (len : Nat) : Nat → State → RunEnd
  | 0, s => .running s
  | n + 1, s =>
    match step s with
    | .next t => if t.pc = pastEnd start len then .final t else runProgram start len n t
    | .fault f => .faulted f (s.atFault f)
    | .refused r => .refused r s

end Sys2Proof.Machine
end

