-- ==== Sys2Proof/Safety.lean ====
section
/-! DEFINITION. The words the claims are stated in: when a form executes normally, what its source value is, what it may change, and what an invariant state is. Each is written from the rules of the spec and not from the meanings. -/

namespace Sys2Proof.Safety

open Sys2Proof.Machine

/-! ## When a form executes normally -/

/-- The enabling conditions of a form hold (70_reset_and_hazards.md R172): 64-bit mode, CR4.OSXSAVE, the vector state in XCR0, every feature flag of the row, CR0.TS = 0. -/
def Ready (e : Scheme) (needs : List Feature) (s : State) : Prop :=
  s.mode = .bits64 ∧ s.osxsave = true ∧ s.xcr0Avx = true ∧ (e = .evex → s.xcr0Avx512 = true) ∧
    (∀ f ∈ needs, hasFeature s.cfg f = true) ∧ s.ts = false

/-- `n` bytes at linear address `la` can be read: canonical, translated, ordinary memory (20_memory.md R44, R47), and aligned where alignment checking is active (60_exceptions.md R150). -/
def Readable (n : Nat) (la : Word64) (s : State) : Prop :=
  (∀ k < n, canonical s.cfg.vaBits (byteAddress la k) = true ∧
    ∃ pa, s.translate .read (byteAddress la k) = .mapped pa false) ∧
  (s.acEnabled = true → la.toNat % n = 0)

/-- The address of the next instruction (10_state.md R25). -/
def nextPc (s : State) (i : Instr) : Word64 := s.pc + BitVec.ofNat 64 i.length

/-- The second operand can be read: a register always, memory when its bytes can. `scale` is the factor N of 30_encoding.md R73. -/
def SourceReadable (n scale : Nat) (i : Instr) (ps : List LegacyPrefix) (src : Source) (s : State) : Prop :=
  match src with
  | .reg _ => True
  | .mem m => Readable n (s.linearAddress ps (nextPc s i) scale m) s

/-- `v` is the value `SRC` of the second operand: the low bits of the register (10_state.md R22), or the bytes of the memory operand, the lowest address in bits 7:0 (20_memory.md R40). -/
def IsSource (w scale : Nat) (i : Instr) (ps : List LegacyPrefix) (src : Source) (s : State) (v : BitVec w) : Prop :=
  match src with
  | .reg r => ∀ b < w, v.getLsbD b = (s.readV r).getLsbD b
  | .mem m => ∀ k < w / 8, v.extractLsb' (8 * k) 8 = s.byteAt .read (byteAddress (s.linearAddress ps (nextPc s i) scale m) k)

/-! ## What a form may change -/

/-- Element `j` of `e` bits of a vector register (00_scope.md R16). -/
def lane (e j : Nat) (r : VReg) : BitVec e := r.extractLsb' (j * e) e

/-- Everything but the vector register `d` and `pc` is as before (10_state.md R32). -/
def Frame (d : BitVec 5) (s t : State) : Prop :=
  (∀ i, i ≠ d → t.readV i = s.readV i) ∧ t.k = s.k ∧ t.x = s.x ∧ t.rflags = s.rflags ∧ t.mxcsr = s.mxcsr ∧
    t.x87 = s.x87 ∧ t.cr0 = s.cr0 ∧ t.cr2 = s.cr2 ∧ t.cr4 = s.cr4 ∧ t.xcr0 = s.xcr0 ∧ t.cpl = s.cpl ∧
    t.lma = s.lma ∧ t.csL = s.csL ∧ t.smm = s.smm ∧ t.fsBase = s.fsBase ∧ t.gsBase = s.gsBase ∧
    t.cfg = s.cfg ∧ ∀ a, t.mem.read a = s.mem.read a

/-- Everything but the vector registers and `pc` is as before (10_state.md R32, R34). -/
def SameButVectorsAndPc (s t : State) : Prop :=
  t.k = s.k ∧ t.x = s.x ∧ t.rflags = s.rflags ∧ t.mxcsr = s.mxcsr ∧ t.x87 = s.x87 ∧ t.cr0 = s.cr0 ∧ t.cr2 = s.cr2 ∧
    t.cr4 = s.cr4 ∧ t.xcr0 = s.xcr0 ∧ t.cpl = s.cpl ∧ t.lma = s.lma ∧ t.csL = s.csL ∧ t.smm = s.smm ∧
    t.fsBase = s.fsBase ∧ t.gsBase = s.gsBase ∧ t.cfg = s.cfg ∧ t.mem = s.mem

/-- The state after a form that completes: the destination holds `lane` values `f`, its bits from `vl` up are zero, `pc` is the next instruction's address, everything else is as before. -/
def Completed (i : Instr) (d : BitVec 5) (esize vl : Nat) (f : Nat → BitVec esize) (s t : State) : Prop :=
  (∀ j < vl / esize, lane esize j (t.readV d) = f j) ∧ (∀ b, vl ≤ b → (t.readV d).getLsbD b = false) ∧
    t.pc = nextPc s i ∧ Frame d s t

/-- Element `j` after an EVEX form (00_scope.md R14): written with tuple element `j mod t`, zeroed, or kept. -/
def maskedElement {w : Nat} (s : State) (esize t : Nat) (d : BitVec 5) (k : Masking) (src : BitVec w) (j : Nat) :
    BitVec esize :=
  if k.aaa = 0#3 ∨ (s.readK k.aaa).getLsbD j = true then src.extractLsb' (j % t * esize) esize
  else if k.z = true then 0#esize
  else lane esize j (s.readV d)

/-! ## Facts of the opcode table, read from its columns (30_encoding.md R75) -/

/-- VEX or EVEX. -/
def scheme : Instr → Scheme
  | .vexSsXmmMem .. | .vexSsYmmMem .. | .vexSdYmmMem .. | .vexF128YmmMem .. | .vexSsXmmReg .. | .vexSsYmmReg ..
  | .vexSdYmmReg .. => .vex
  | .evexSdYmm .. | .evexSdZmm .. | .evexF32x2Ymm .. | .evexF32x2Zmm .. | .evexSsXmm .. | .evexSsYmm .. | .evexSsZmm ..
  | .evexF32x4Ymm .. | .evexF32x4Zmm .. | .evexF64x2Ymm .. | .evexF64x2Zmm .. | .evexF32x8Zmm .. | .evexF64x4Zmm .. => .evex

/-- The column "Needs". -/
def needs : Instr → List Feature
  | .vexSsXmmMem .. | .vexSsYmmMem .. | .vexSdYmmMem .. | .vexF128YmmMem .. => [.avx]
  | .vexSsXmmReg .. | .vexSsYmmReg .. | .vexSdYmmReg .. => [.avx2]
  | .evexSdYmm .. | .evexSsXmm .. | .evexSsYmm .. | .evexF32x4Ymm .. => [.avx512vl, .avx512f]
  | .evexSdZmm .. | .evexSsZmm .. | .evexF32x4Zmm .. | .evexF64x4Zmm .. => [.avx512f]
  | .evexF32x2Ymm .. | .evexF64x2Ymm .. => [.avx512vl, .avx512dq]
  | .evexF32x2Zmm .. | .evexF64x2Zmm .. | .evexF32x8Zmm .. => [.avx512dq]

/-- The destination register number. -/
def destination : Instr → BitVec 5
  | .vexSsXmmMem _ d _ | .vexSsYmmMem _ d _ | .vexSdYmmMem _ d _ | .vexF128YmmMem _ d _ | .vexSsXmmReg _ d _
  | .vexSsYmmReg _ d _ | .vexSdYmmReg _ d _ => d.setWidth 5
  | .evexSdYmm _ d _ _ | .evexSdZmm _ d _ _ | .evexF32x2Ymm _ d _ _ | .evexF32x2Zmm _ d _ _ | .evexSsXmm _ d _ _
  | .evexSsYmm _ d _ _ | .evexSsZmm _ d _ _ | .evexF32x4Ymm _ d _ _ | .evexF32x4Zmm _ d _ _ | .evexF64x2Ymm _ d _ _
  | .evexF64x2Zmm _ d _ _ | .evexF32x8Zmm _ d _ _ | .evexF64x4Zmm _ d _ _ => d

/-- The legacy bytes in front. -/
def legacyPrefixes : Instr → List LegacyPrefix
  | .vexSsXmmMem ps _ _ | .vexSsYmmMem ps _ _ | .vexSdYmmMem ps _ _ | .vexF128YmmMem ps _ _ | .vexSsXmmReg ps _ _
  | .vexSsYmmReg ps _ _ | .vexSdYmmReg ps _ _ => ps
  | .evexSdYmm ps _ _ _ | .evexSdZmm ps _ _ _ | .evexF32x2Ymm ps _ _ _ | .evexF32x2Zmm ps _ _ _ | .evexSsXmm ps _ _ _
  | .evexSsYmm ps _ _ _ | .evexSsZmm ps _ _ _ | .evexF32x4Ymm ps _ _ _ | .evexF32x4Zmm ps _ _ _ | .evexF64x2Ymm ps _ _ _
  | .evexF64x2Zmm ps _ _ _ | .evexF32x8Zmm ps _ _ _ | .evexF64x4Zmm ps _ _ _ => ps

/-- The second operand; a VEX register source as its 5-bit number. -/
def sourceOf : Instr → Source
  | .vexSsXmmMem _ _ m | .vexSsYmmMem _ _ m | .vexSdYmmMem _ _ m | .vexF128YmmMem _ _ m => .mem m
  | .vexSsXmmReg _ _ r | .vexSsYmmReg _ _ r | .vexSdYmmReg _ _ r => .reg (r.setWidth 5)
  | .evexSdYmm _ _ _ src | .evexSdZmm _ _ _ src | .evexF32x2Ymm _ _ _ src | .evexF32x2Zmm _ _ _ src
  | .evexSsXmm _ _ _ src | .evexSsYmm _ _ _ src | .evexSsZmm _ _ _ src => src
  | .evexF32x4Ymm _ _ _ m | .evexF32x4Zmm _ _ _ m | .evexF64x2Ymm _ _ _ m | .evexF64x2Zmm _ _ _ m
  | .evexF32x8Zmm _ _ _ m | .evexF64x4Zmm _ _ _ m => .mem m

/-- The bytes a memory operand of the row has (20_memory.md R42). -/
def operandBytes : Instr → Nat
  | .vexSsXmmMem .. | .vexSsYmmMem .. | .vexSsXmmReg .. | .vexSsYmmReg .. | .evexSsXmm .. | .evexSsYmm .. | .evexSsZmm .. => 4
  | .vexSdYmmMem .. | .vexSdYmmReg .. | .evexSdYmm .. | .evexSdZmm .. | .evexF32x2Ymm .. | .evexF32x2Zmm .. => 8
  | .vexF128YmmMem .. | .evexF32x4Ymm .. | .evexF32x4Zmm .. | .evexF64x2Ymm .. | .evexF64x2Zmm .. => 16
  | .evexF32x8Zmm .. | .evexF64x4Zmm .. => 32

/-- `KL`, the number of destination elements the writemask covers; 0 for a VEX form, which has none (30_encoding.md R66). -/
def maskedElements : Instr → Nat
  | .vexSsXmmMem .. | .vexSsYmmMem .. | .vexSdYmmMem .. | .vexF128YmmMem .. | .vexSsXmmReg .. | .vexSsYmmReg ..
  | .vexSdYmmReg .. => 0
  | .evexSsXmm .. | .evexSdYmm .. | .evexF64x2Ymm .. => 4
  | .evexSsYmm .. | .evexSdZmm .. | .evexF32x2Ymm .. | .evexF32x4Ymm .. | .evexF64x2Zmm .. | .evexF64x4Zmm .. => 8
  | .evexSsZmm .. | .evexF32x2Zmm .. | .evexF32x4Zmm .. | .evexF32x8Zmm .. => 16

/-- The masking fields; a VEX form has no writemask. -/
def maskingOf : Instr → Masking
  | .vexSsXmmMem .. | .vexSsYmmMem .. | .vexSdYmmMem .. | .vexF128YmmMem .. | .vexSsXmmReg .. | .vexSsYmmReg ..
  | .vexSdYmmReg .. => ⟨0#3, false⟩
  | .evexSdYmm _ _ k _ | .evexSdZmm _ _ k _ | .evexF32x2Ymm _ _ k _ | .evexF32x2Zmm _ _ k _ | .evexSsXmm _ _ k _
  | .evexSsYmm _ _ k _ | .evexSsZmm _ _ k _ | .evexF32x4Ymm _ _ k _ | .evexF32x4Zmm _ _ k _ | .evexF64x2Ymm _ _ k _
  | .evexF64x2Zmm _ _ k _ | .evexF32x8Zmm _ _ k _ | .evexF64x4Zmm _ _ k _ => k

/-- The vector length `VL` in bits (30_encoding.md R63, R66). -/
def vectorLength : Instr → Nat
  | .vexSsXmmMem .. | .vexSsXmmReg .. | .evexSsXmm .. => 128
  | .vexSsYmmMem .. | .vexSdYmmMem .. | .vexF128YmmMem .. | .vexSsYmmReg .. | .vexSdYmmReg .. | .evexSdYmm ..
  | .evexF32x2Ymm .. | .evexSsYmm .. | .evexF32x4Ymm .. | .evexF64x2Ymm .. => 256
  | .evexSdZmm .. | .evexF32x2Zmm .. | .evexSsZmm .. | .evexF32x4Zmm .. | .evexF64x2Zmm .. | .evexF32x8Zmm ..
  | .evexF64x4Zmm .. => 512

/-- The factor N of 30_encoding.md R73: 1 under VEX, the operand's bytes under EVEX. -/
def dispScale (i : Instr) : Nat := if scheme i = .vex then 1 else operandBytes i

/-- The memory operand of an instruction and its linear address, if the source is memory. -/
def operandAddress (i : Instr) (s : State) : Option (Segment × Word64) :=
  match sourceOf i with
  | .reg _ => none
  | .mem m => some (segmentOf (legacyPrefixes i) m, s.linearAddress (legacyPrefixes i) (nextPc s i) (dispScale i) m)

/-! ## Bytes at the instruction pointer -/

/-- The bytes that can be fetched at `pc`, at most 15 (30_encoding.md R74). -/
def codeBytes (s : State) : List Byte := (s.fetchWindow maxLength s.pc).1

/-- The bytes of a VEX encoding inside the family's space (30_encoding.md R77): map 0F38, pp = 01b, opcode 18H, 19H or 1AH, and operand bytes that do not end early. -/
def VexSpace (b1 b2 op : Byte) (operand : List Byte) : Prop :=
  b1.extractLsb' 0 5 = 2#5 ∧ b2.extractLsb' 0 2 = 1#2 ∧ (op = 0x18#8 ∨ op = 0x19#8 ∨ op = 0x1A#8) ∧
    (takeModRM (!b1.getLsbD 6) (!b1.getLsbD 5) operand).isSome = true

/-- The bytes of an EVEX encoding inside the family's space (30_encoding.md R77): P0[3:0] = 0010b, pp = 01b, opcode 18H to 1BH. -/
def EvexSpace (p0 p1 op : Byte) (operand : List Byte) : Prop :=
  p0.extractLsb' 0 4 = 2#4 ∧ p1.extractLsb' 0 2 = 1#2 ∧ (op = 0x18#8 ∨ op = 0x19#8 ∨ op = 0x1A#8 ∨ op = 0x1B#8) ∧
    (takeModRM (!p0.getLsbD 6) (!p0.getLsbD 5) operand).isSome = true

/-- ModRM.mod = 11b: the second operand is a register (30_encoding.md R68). -/
def registerOperand : List Byte → Bool
  | [] => false
  | m :: _ => m.extractLsb' 6 2 == 3#2

/-- The form's encoding has R = 1 or X = 1: a destination above 7 or an index register above 7 (30_encoding.md R63). -/
def extendsRX (i : Instr) : Bool :=
  (destination i).getLsbD 3 ||
    match sourceOf i with
    | .reg _ => false
    | .mem m => m.fields.x

/-! ## The parts of a row's rule (the template of 40_vex_forms.md, 41_evex_scalar_broadcast.md, 42_evex_tuple_broadcast.md) -/

/-- Pseudocode of a VEX row: in every state in which the form executes normally it completes, with the source value in every element, zeros above, and nothing else changed. -/
def VexEffect (i : Instr) (flags : List Feature) (esize vl : Nat) (ps : List LegacyPrefix) (d : BitVec 4) (src : Source) : Prop :=
  ∀ s, Ready .vex flags s → SourceReadable (esize / 8) 1 i ps src s →
    ∃ temp : BitVec esize, IsSource esize 1 i ps src s temp ∧
      ∃ t, exec i s = .next t ∧ Completed i (d.setWidth 5) esize vl (fun _ => temp) s t

/-- Pseudocode of an EVEX row with `n` elements in the tuple: elements written, zeroed or kept by the writemask, zeros above, nothing else changed. -/
def EvexEffect (i : Instr) (flags : List Feature) (esize n vl : Nat) (ps : List LegacyPrefix) (d : BitVec 5) (k : Masking)
    (src : Source) : Prop :=
  ∀ s, Ready .evex flags s → SourceReadable (n * esize / 8) (n * esize / 8) i ps src s →
    ∃ temp : BitVec (n * esize), IsSource (n * esize) (n * esize / 8) i ps src s temp ∧
      ∃ t, exec i s = .next t ∧ Completed i d esize vl (maskedElement s esize n d k temp) s t

/-- Encoding of a VEX row: `C4 <RXB 00010> <b2> <op> <ModRM> ...` after the legacy bytes, mod = 11b exactly for a register source, and a well-formed form decodes back from it. -/
def VexEncoding (i : Instr) (ps : List LegacyPrefix) (b2 op : Byte) (registerSource : Bool) : Prop :=
  (∃ b1 modrm tail, encode i = ps.map LegacyPrefix.byte ++ 0xC4#8 :: b1 :: b2 :: op :: modrm :: tail ∧
    b1.extractLsb' 0 5 = 2#5 ∧ (modrm.extractLsb' 6 2 = 3#2 ↔ registerSource = true)) ∧
  (i.wellFormed = true → ∀ rest, decode (encode i ++ rest) = .instr i rest)

/-- Encoding of an EVEX row: `62 <RXBR' 0010> <p1> <z L'L 0 1 aaa> <op> <ModRM> ...` after the legacy bytes, and a well-formed form decodes back from it. -/
def EvexEncoding (i : Instr) (ps : List LegacyPrefix) (p1 op : Byte) (ll : BitVec 2) (k : Masking) (src : Source) : Prop :=
  (∃ p0 modrm tail, encode i = ps.map LegacyPrefix.byte ++
      0x62#8 :: p0 :: p1 :: (BitVec.ofBool k.z ++ ll ++ 0#1 ++ 1#1 ++ k.aaa) :: op :: modrm :: tail ∧
    p0.extractLsb' 0 4 = 2#4 ∧ (modrm.extractLsb' 6 2 = 3#2 ↔ ∃ r, src = .reg r)) ∧
  (i.wellFormed = true → ∀ rest, decode (encode i ++ rest) = .instr i rest)

/-- #UD and #NM of the common exception list (60_exceptions.md R143, R146, R147, R152): every #UD reason comes before CR0.TS. -/
def EnablingStops (i : Instr) : Prop :=
  ∀ s, ((s.mode = .realAddress ∨ s.mode = .virtual8086) → exec i s = .fault .ud) ∧
    (s.mode = .bits64 →
      (s.osxsave = false ∨ s.xcr0Avx = false ∨ (scheme i = .evex ∧ s.xcr0Avx512 = false) ∨
        ∃ f ∈ needs i, hasFeature s.cfg f = false) → exec i s = .fault .ud) ∧
    (s.mode = .bits64 → s.osxsave = true → s.xcr0Avx = true → (scheme i = .evex → s.xcr0Avx512 = true) →
      (∀ f ∈ needs i, hasFeature s.cfg f = true) → s.ts = true → exec i s = .fault .nm)

/-- Byte `k` of the operand is mapped. -/
def Mapped (s : State) (la : Word64) (k : Nat) : Prop :=
  ∃ pa device, s.translate .read (byteAddress la k) = .mapped pa device

/-- The memory exceptions of the common list in their order (20_memory.md R47, 60_exceptions.md R148, R149, R150, R152). -/
def MemoryStops (i : Instr) : Prop :=
  ∀ s seg la, Ready (scheme i) (needs i) s → operandAddress i s = some (seg, la) →
    ((∃ k < operandBytes i, canonical s.cfg.vaBits (byteAddress la k) = false) →
      exec i s = .fault (if seg = .ss then .ss else .gp)) ∧
    ((∀ k < operandBytes i, canonical s.cfg.vaBits (byteAddress la k) = true) →
      (∀ k < operandBytes i, ∀ code, (∀ j < k, Mapped s la j) → s.translate .read (byteAddress la k) = .pageFault code →
        exec i s = .fault (.pf (byteAddress la k) code)) ∧
      ((∀ k < operandBytes i, Mapped s la k) → s.acEnabled = true → la.toNat % operandBytes i ≠ 0 →
        operandBytes i ≤ 8 → exec i s = .fault .ac))

/-- A register-source form raises #UD and #NM only (the common list of 40_vex_forms.md). -/
def RegisterStops (i : Instr) : Prop :=
  ∀ r, sourceOf i = .reg r → ∀ s f, exec i s = .fault f → f = .ud ∨ f = .nm

/-- A byte in front that 30_encoding.md R61 does not allow raises #UD, wherever it stands among the legacy bytes (60_exceptions.md R145); that it counts anywhere in front, also with an allowed byte behind it, is the model's reading (DEDUCED, log 18). -/
def ForbiddenFrontStops (i : Instr) : Prop :=
  ∀ s front rest, s.mode = .bits64 → i.operandsWellFormed = true → codeBytes s = front ++ (encode i ++ rest) →
    (∀ b ∈ front, frontByte true b ≠ .other) → (∃ b ∈ front, frontByte true b = .forbidden) → step s = .fault .ud

/-- The common exception list of a form. Its clause about the bytes in front (`ForbiddenFrontStops`) rests on log 18 (DEDUCED) where the forbidden byte does not stand directly before the escape. -/
def CommonExceptions (i : Instr) : Prop :=
  EnablingStops i ∧ MemoryStops i ∧ RegisterStops i ∧ ForbiddenFrontStops i

/-- VEX bytes `C4 b1 b2 op` inside the family's space raise #UD, for every operand, or for every register operand. -/
def VexBytesRaiseUd (b2 op : Byte) (registerOnly : Bool) : Prop :=
  ∀ s (ps : List LegacyPrefix) b1 operand, s.mode = .bits64 →
    codeBytes s = ps.map LegacyPrefix.byte ++ 0xC4#8 :: b1 :: b2 :: op :: operand → VexSpace b1 b2 op operand →
    (registerOnly = true → registerOperand operand = true) → step s = .fault .ud

/-- EVEX bytes `62 p0 p1 p2 op` inside the family's space with this L'L raise #UD, for every operand, or for every register operand. -/
def EvexBytesRaiseUd (p1 op : Byte) (ll : BitVec 2) (registerOnly : Bool) : Prop :=
  ∀ s (ps : List LegacyPrefix) p0 p2 operand, s.mode = .bits64 →
    codeBytes s = ps.map LegacyPrefix.byte ++ 0x62#8 :: p0 :: p1 :: p2 :: op :: operand → EvexSpace p0 p1 op operand →
    p2.extractLsb' 5 2 = ll → (registerOnly = true → registerOperand operand = true) → step s = .fault .ud

/-! ## Runs (70_reset_and_hazards.md R173) -/

/-- After none of the first `k` steps from `s` does `pc` stand just past the program. -/
def NotYetFinal (start : Word64) (len k : Nat) (s : State) : Prop :=
  ∀ j, 0 < j → j ≤ k → ∀ u, Host.Core.run core j s = .next u → u.pc ≠ pastEnd start len

/-- What the end of a run says of its steps: final exactly where `pc` first stands past the program after a completed step; stopped where a step raised or refused before that. -/
def EndDescribes (start : Word64) (len n : Nat) (s : State) : RunEnd → Prop
  | .running u => Host.Core.run core n s = .next u ∧ NotYetFinal start len n s
  | .final u => u.pc = pastEnd start len ∧ ∃ k < n, NotYetFinal start len k s ∧ Host.Core.run core (k + 1) s = .next u
  | .faulted f u => ∃ k < n, NotYetFinal start len k s ∧ ∃ v, Host.Core.run core k s = .next v ∧ step v = .fault f ∧ u = v.atFault f
  | .refused r u => ∃ k < n, NotYetFinal start len k s ∧ Host.Core.run core k s = .next u ∧ step u = .refused r

/-! ## Invariant states -/

/-- Memory in its canonical form and an address width the canonical check of 20_memory.md R47 has a meaning for. -/
def CanonicalState (s : State) : Prop := s.mem.wf = true ∧ 1 ≤ s.cfg.vaBits ∧ s.cfg.vaBits ≤ 64

end Sys2Proof.Safety
end

