-- ==== Sys2Proof/Certificates/Slice0/Obligations.lean ====
section
/-! DEFINITION. The statements for the provers. Each docstring names the rules of the spec it formalises; the words used are in Sys2Proof/Safety.lean. -/

open Sys2Proof Sys2Proof.Machine Sys2Proof.Safety

/-- R101, row 1: VBROADCASTSS xmm1, m32. Effect, encoding and exceptions; the effect clause is its completion: hypotheses on the state alone, conclusion `exec … = next t`; the clause about a forbidden byte anywhere in front is the model's reading of R61 and R145 (DEDUCED, log 18); that an operand with a byte in device memory raises #PF or #AC before it is refused is log 13, that its byte addresses wrap at the top of the address space is log 8. -/
def Obligations.VbroadcastssXmmMemRow : Prop :=
  ∀ (ps : List LegacyPrefix) (d : BitVec 4) (m : MemOperand),
    VexEffect (.vexSsXmmMem ps d m) [.avx] 32 128 ps d (.mem m) ∧
    VexEncoding (.vexSsXmmMem ps d m) ps 0x79#8 0x18#8 false ∧
    CommonExceptions (.vexSsXmmMem ps d m)

/-- R102, row 2: VBROADCASTSS ymm1, m32. Effect, encoding and exceptions; the effect clause is its completion: hypotheses on the state alone, conclusion `exec … = next t`; the clause about a forbidden byte anywhere in front is the model's reading of R61 and R145 (DEDUCED, log 18); that an operand with a byte in device memory raises #PF or #AC before it is refused is log 13, that its byte addresses wrap at the top of the address space is log 8. -/
def Obligations.VbroadcastssYmmMemRow : Prop :=
  ∀ (ps : List LegacyPrefix) (d : BitVec 4) (m : MemOperand),
    VexEffect (.vexSsYmmMem ps d m) [.avx] 32 256 ps d (.mem m) ∧
    VexEncoding (.vexSsYmmMem ps d m) ps 0x7D#8 0x18#8 false ∧
    CommonExceptions (.vexSsYmmMem ps d m)

/-- R103, row 3: VBROADCASTSD ymm1, m64. Effect, encoding and exceptions; the effect clause is its completion: hypotheses on the state alone, conclusion `exec … = next t`; the clause about a forbidden byte anywhere in front is the model's reading of R61 and R145 (DEDUCED, log 18); that an operand with a byte in device memory raises #PF or #AC before it is refused is log 13, that its byte addresses wrap at the top of the address space is log 8. -/
def Obligations.VbroadcastsdYmmMemRow : Prop :=
  ∀ (ps : List LegacyPrefix) (d : BitVec 4) (m : MemOperand),
    VexEffect (.vexSdYmmMem ps d m) [.avx] 64 256 ps d (.mem m) ∧
    VexEncoding (.vexSdYmmMem ps d m) ps 0x7D#8 0x19#8 false ∧
    CommonExceptions (.vexSdYmmMem ps d m) ∧
    VexBytesRaiseUd 0x79#8 0x19#8 false

/-- R104, row 4: VBROADCASTF128 ymm1, m128. Effect, encoding and exceptions; the effect clause is its completion: hypotheses on the state alone, conclusion `exec … = next t`; the clause about a forbidden byte anywhere in front is the model's reading of R61 and R145 (DEDUCED, log 18); that an operand with a byte in device memory raises #PF or #AC before it is refused is log 13, that its byte addresses wrap at the top of the address space is log 8. -/
def Obligations.Vbroadcastf128YmmMemRow : Prop :=
  ∀ (ps : List LegacyPrefix) (d : BitVec 4) (m : MemOperand),
    VexEffect (.vexF128YmmMem ps d m) [.avx] 128 256 ps d (.mem m) ∧
    VexEncoding (.vexF128YmmMem ps d m) ps 0x7D#8 0x1A#8 false ∧
    CommonExceptions (.vexF128YmmMem ps d m) ∧
    VexBytesRaiseUd 0x79#8 0x1A#8 false ∧
    VexBytesRaiseUd 0x7D#8 0x1A#8 true

/-- R105, row 5: VBROADCASTSS xmm1, xmm2. Effect, encoding and exceptions; the effect clause is its completion: hypotheses on the state alone, conclusion `exec … = next t`; the clause about a forbidden byte anywhere in front is the model's reading of R61 and R145 (DEDUCED, log 18). -/
def Obligations.VbroadcastssXmmRegRow : Prop :=
  ∀ (ps : List LegacyPrefix) (d s : BitVec 4),
    VexEffect (.vexSsXmmReg ps d s) [.avx2] 32 128 ps d (.reg (s.setWidth 5)) ∧
    VexEncoding (.vexSsXmmReg ps d s) ps 0x79#8 0x18#8 true ∧
    CommonExceptions (.vexSsXmmReg ps d s)

/-- R106, row 6: VBROADCASTSS ymm1, xmm2. Effect, encoding and exceptions; the effect clause is its completion: hypotheses on the state alone, conclusion `exec … = next t`; the clause about a forbidden byte anywhere in front is the model's reading of R61 and R145 (DEDUCED, log 18). -/
def Obligations.VbroadcastssYmmRegRow : Prop :=
  ∀ (ps : List LegacyPrefix) (d s : BitVec 4),
    VexEffect (.vexSsYmmReg ps d s) [.avx2] 32 256 ps d (.reg (s.setWidth 5)) ∧
    VexEncoding (.vexSsYmmReg ps d s) ps 0x7D#8 0x18#8 true ∧
    CommonExceptions (.vexSsYmmReg ps d s)

/-- R107, row 7: VBROADCASTSD ymm1, xmm2. Effect, encoding and exceptions; the effect clause is its completion: hypotheses on the state alone, conclusion `exec … = next t`; the clause about a forbidden byte anywhere in front is the model's reading of R61 and R145 (DEDUCED, log 18). -/
def Obligations.VbroadcastsdYmmRegRow : Prop :=
  ∀ (ps : List LegacyPrefix) (d s : BitVec 4),
    VexEffect (.vexSdYmmReg ps d s) [.avx2] 64 256 ps d (.reg (s.setWidth 5)) ∧
    VexEncoding (.vexSdYmmReg ps d s) ps 0x7D#8 0x19#8 true ∧
    CommonExceptions (.vexSdYmmReg ps d s) ∧
    VexBytesRaiseUd 0x79#8 0x19#8 false

/-- R110, row 12: VBROADCASTSS xmm1 with writemask, xmm2/m32. Effect, encoding and exceptions; the source and the old destination are taken before the write (R14); the value where the source register is the destination is decision D15 (log 15), the spec's choice and not its source's words; the clause about a forbidden byte anywhere in front is the model's reading of R61 and R145 (DEDUCED, log 18); that an operand with a byte in device memory raises #PF or #AC before it is refused is log 13, that its byte addresses wrap at the top of the address space is log 8. -/
def Obligations.EvexVbroadcastssXmmRow : Prop :=
  ∀ (ps : List LegacyPrefix) (d : BitVec 5) (k : Masking) (src : Source),
    EvexEffect (.evexSsXmm ps d k src) [.avx512vl, .avx512f] 32 1 128 ps d k src ∧
    EvexEncoding (.evexSsXmm ps d k src) ps 0x7D#8 0x18#8 0#2 k src ∧
    CommonExceptions (.evexSsXmm ps d k src)

/-- R111, row 13: VBROADCASTSS ymm1 with writemask, xmm2/m32. Effect, encoding and exceptions; the source and the old destination are taken before the write (R14); the value where the source register is the destination is decision D15 (log 15), the spec's choice and not its source's words; the clause about a forbidden byte anywhere in front is the model's reading of R61 and R145 (DEDUCED, log 18); that an operand with a byte in device memory raises #PF or #AC before it is refused is log 13, that its byte addresses wrap at the top of the address space is log 8. -/
def Obligations.EvexVbroadcastssYmmRow : Prop :=
  ∀ (ps : List LegacyPrefix) (d : BitVec 5) (k : Masking) (src : Source),
    EvexEffect (.evexSsYmm ps d k src) [.avx512vl, .avx512f] 32 1 256 ps d k src ∧
    EvexEncoding (.evexSsYmm ps d k src) ps 0x7D#8 0x18#8 1#2 k src ∧
    CommonExceptions (.evexSsYmm ps d k src)

/-- R112, row 14: VBROADCASTSS zmm1 with writemask, xmm2/m32. Effect, encoding and exceptions; the source and the old destination are taken before the write (R14); the value where the source register is the destination is decision D15 (log 15), the spec's choice and not its source's words; the clause about a forbidden byte anywhere in front is the model's reading of R61 and R145 (DEDUCED, log 18); that an operand with a byte in device memory raises #PF or #AC before it is refused is log 13, that its byte addresses wrap at the top of the address space is log 8. -/
def Obligations.EvexVbroadcastssZmmRow : Prop :=
  ∀ (ps : List LegacyPrefix) (d : BitVec 5) (k : Masking) (src : Source),
    EvexEffect (.evexSsZmm ps d k src) [.avx512f] 32 1 512 ps d k src ∧
    EvexEncoding (.evexSsZmm ps d k src) ps 0x7D#8 0x18#8 2#2 k src ∧
    CommonExceptions (.evexSsZmm ps d k src)

/-- R113, row 8: VBROADCASTSD ymm1 with writemask, xmm2/m64. Effect, encoding and exceptions; the source and the old destination are taken before the write (R14); the value where the source register is the destination is decision D15 (log 15), the spec's choice and not its source's words; the clause about a forbidden byte anywhere in front is the model's reading of R61 and R145 (DEDUCED, log 18); that an operand with a byte in device memory raises #PF or #AC before it is refused is log 13, that its byte addresses wrap at the top of the address space is log 8. -/
def Obligations.EvexVbroadcastsdYmmRow : Prop :=
  ∀ (ps : List LegacyPrefix) (d : BitVec 5) (k : Masking) (src : Source),
    EvexEffect (.evexSdYmm ps d k src) [.avx512vl, .avx512f] 64 1 256 ps d k src ∧
    EvexEncoding (.evexSdYmm ps d k src) ps 0xFD#8 0x19#8 1#2 k src ∧
    CommonExceptions (.evexSdYmm ps d k src) ∧
    EvexBytesRaiseUd 0xFD#8 0x19#8 0#2 false

/-- R114, row 9: VBROADCASTSD zmm1 with writemask, xmm2/m64. Effect, encoding and exceptions; the source and the old destination are taken before the write (R14); the value where the source register is the destination is decision D15 (log 15), the spec's choice and not its source's words; the clause about a forbidden byte anywhere in front is the model's reading of R61 and R145 (DEDUCED, log 18); that an operand with a byte in device memory raises #PF or #AC before it is refused is log 13, that its byte addresses wrap at the top of the address space is log 8. -/
def Obligations.EvexVbroadcastsdZmmRow : Prop :=
  ∀ (ps : List LegacyPrefix) (d : BitVec 5) (k : Masking) (src : Source),
    EvexEffect (.evexSdZmm ps d k src) [.avx512f] 64 1 512 ps d k src ∧
    EvexEncoding (.evexSdZmm ps d k src) ps 0xFD#8 0x19#8 2#2 k src ∧
    CommonExceptions (.evexSdZmm ps d k src)

/-- R120, row 10: VBROADCASTF32X2 ymm1 with writemask, xmm2/m64. Effect, encoding and exceptions; the source and the old destination are taken before the write (R14); the value where the source register is the destination is decision D15 (log 15), the spec's choice and not its source's words; the clause about a forbidden byte anywhere in front is the model's reading of R61 and R145 (DEDUCED, log 18); that an operand with a byte in device memory raises #PF or #AC before it is refused is log 13, that its byte addresses wrap at the top of the address space is log 8. -/
def Obligations.EvexVbroadcastf32x2YmmRow : Prop :=
  ∀ (ps : List LegacyPrefix) (d : BitVec 5) (k : Masking) (src : Source),
    EvexEffect (.evexF32x2Ymm ps d k src) [.avx512vl, .avx512dq] 32 2 256 ps d k src ∧
    EvexEncoding (.evexF32x2Ymm ps d k src) ps 0x7D#8 0x19#8 1#2 k src ∧
    CommonExceptions (.evexF32x2Ymm ps d k src) ∧
    EvexBytesRaiseUd 0x7D#8 0x19#8 0#2 false

/-- R121, row 11: VBROADCASTF32X2 zmm1 with writemask, xmm2/m64. Effect, encoding and exceptions; the source and the old destination are taken before the write (R14); the value where the source register is the destination is decision D15 (log 15), the spec's choice and not its source's words; the clause about a forbidden byte anywhere in front is the model's reading of R61 and R145 (DEDUCED, log 18); that an operand with a byte in device memory raises #PF or #AC before it is refused is log 13, that its byte addresses wrap at the top of the address space is log 8. -/
def Obligations.EvexVbroadcastf32x2ZmmRow : Prop :=
  ∀ (ps : List LegacyPrefix) (d : BitVec 5) (k : Masking) (src : Source),
    EvexEffect (.evexF32x2Zmm ps d k src) [.avx512dq] 32 2 512 ps d k src ∧
    EvexEncoding (.evexF32x2Zmm ps d k src) ps 0x7D#8 0x19#8 2#2 k src ∧
    CommonExceptions (.evexF32x2Zmm ps d k src)

/-- R122, row 15: VBROADCASTF32X4 ymm1 with writemask, m128. Effect, encoding and exceptions; the source and the old destination are taken before the write (R14); #UD for a register source is decision D17 (log 17); the clause about a forbidden byte anywhere in front is the model's reading of R61 and R145 (DEDUCED, log 18); that an operand with a byte in device memory raises #PF or #AC before it is refused is log 13, that its byte addresses wrap at the top of the address space is log 8. -/
def Obligations.EvexVbroadcastf32x4YmmRow : Prop :=
  ∀ (ps : List LegacyPrefix) (d : BitVec 5) (k : Masking) (m : MemOperand),
    EvexEffect (.evexF32x4Ymm ps d k m) [.avx512vl, .avx512f] 32 4 256 ps d k (.mem m) ∧
    EvexEncoding (.evexF32x4Ymm ps d k m) ps 0x7D#8 0x1A#8 1#2 k (.mem m) ∧
    CommonExceptions (.evexF32x4Ymm ps d k m) ∧
    EvexBytesRaiseUd 0x7D#8 0x1A#8 0#2 false ∧
    EvexBytesRaiseUd 0x7D#8 0x1A#8 1#2 true

/-- R123, row 16: VBROADCASTF32X4 zmm1 with writemask, m128. Effect, encoding and exceptions; the source and the old destination are taken before the write (R14); #UD for a register source is decision D17 (log 17); the clause about a forbidden byte anywhere in front is the model's reading of R61 and R145 (DEDUCED, log 18); that an operand with a byte in device memory raises #PF or #AC before it is refused is log 13, that its byte addresses wrap at the top of the address space is log 8. -/
def Obligations.EvexVbroadcastf32x4ZmmRow : Prop :=
  ∀ (ps : List LegacyPrefix) (d : BitVec 5) (k : Masking) (m : MemOperand),
    EvexEffect (.evexF32x4Zmm ps d k m) [.avx512f] 32 4 512 ps d k (.mem m) ∧
    EvexEncoding (.evexF32x4Zmm ps d k m) ps 0x7D#8 0x1A#8 2#2 k (.mem m) ∧
    CommonExceptions (.evexF32x4Zmm ps d k m) ∧
    EvexBytesRaiseUd 0x7D#8 0x1A#8 0#2 false ∧
    EvexBytesRaiseUd 0x7D#8 0x1A#8 2#2 true

/-- R124, row 17: VBROADCASTF64X2 ymm1 with writemask, m128. Effect, encoding and exceptions; the source and the old destination are taken before the write (R14); #UD for a register source is decision D17 (log 17); the zero upper bits are decision D16 (log 16); the clause about a forbidden byte anywhere in front is the model's reading of R61 and R145 (DEDUCED, log 18); that an operand with a byte in device memory raises #PF or #AC before it is refused is log 13, that its byte addresses wrap at the top of the address space is log 8. -/
def Obligations.EvexVbroadcastf64x2YmmRow : Prop :=
  ∀ (ps : List LegacyPrefix) (d : BitVec 5) (k : Masking) (m : MemOperand),
    EvexEffect (.evexF64x2Ymm ps d k m) [.avx512vl, .avx512dq] 64 2 256 ps d k (.mem m) ∧
    EvexEncoding (.evexF64x2Ymm ps d k m) ps 0xFD#8 0x1A#8 1#2 k (.mem m) ∧
    CommonExceptions (.evexF64x2Ymm ps d k m) ∧
    EvexBytesRaiseUd 0xFD#8 0x1A#8 0#2 false ∧
    EvexBytesRaiseUd 0xFD#8 0x1A#8 1#2 true

/-- R125, row 18: VBROADCASTF64X2 zmm1 with writemask, m128. Effect, encoding and exceptions; the source and the old destination are taken before the write (R14); #UD for a register source is decision D17 (log 17); the clause about a forbidden byte anywhere in front is the model's reading of R61 and R145 (DEDUCED, log 18); that an operand with a byte in device memory raises #PF or #AC before it is refused is log 13, that its byte addresses wrap at the top of the address space is log 8. -/
def Obligations.EvexVbroadcastf64x2ZmmRow : Prop :=
  ∀ (ps : List LegacyPrefix) (d : BitVec 5) (k : Masking) (m : MemOperand),
    EvexEffect (.evexF64x2Zmm ps d k m) [.avx512dq] 64 2 512 ps d k (.mem m) ∧
    EvexEncoding (.evexF64x2Zmm ps d k m) ps 0xFD#8 0x1A#8 2#2 k (.mem m) ∧
    CommonExceptions (.evexF64x2Zmm ps d k m) ∧
    EvexBytesRaiseUd 0xFD#8 0x1A#8 0#2 false ∧
    EvexBytesRaiseUd 0xFD#8 0x1A#8 2#2 true

/-- R126, row 19: VBROADCASTF32X8 zmm1 with writemask, m256. Effect, encoding and exceptions; the source and the old destination are taken before the write (R14); #UD for a register source is decision D17 (log 17); the clause about a forbidden byte anywhere in front is the model's reading of R61 and R145 (DEDUCED, log 18); that an operand with a byte in device memory raises #PF or #AC before it is refused is log 13, that its byte addresses wrap at the top of the address space is log 8. -/
def Obligations.EvexVbroadcastf32x8ZmmRow : Prop :=
  ∀ (ps : List LegacyPrefix) (d : BitVec 5) (k : Masking) (m : MemOperand),
    EvexEffect (.evexF32x8Zmm ps d k m) [.avx512dq] 32 8 512 ps d k (.mem m) ∧
    EvexEncoding (.evexF32x8Zmm ps d k m) ps 0x7D#8 0x1B#8 2#2 k (.mem m) ∧
    CommonExceptions (.evexF32x8Zmm ps d k m) ∧
    EvexBytesRaiseUd 0x7D#8 0x1B#8 0#2 false ∧
    EvexBytesRaiseUd 0x7D#8 0x1B#8 1#2 false ∧
    EvexBytesRaiseUd 0x7D#8 0x1B#8 2#2 true

/-- R127, row 20: VBROADCASTF64X4 zmm1 with writemask, m256. Effect, encoding and exceptions; the source and the old destination are taken before the write (R14); #UD for a register source is decision D17 (log 17); the clause about a forbidden byte anywhere in front is the model's reading of R61 and R145 (DEDUCED, log 18); that an operand with a byte in device memory raises #PF or #AC before it is refused is log 13, that its byte addresses wrap at the top of the address space is log 8. -/
def Obligations.EvexVbroadcastf64x4ZmmRow : Prop :=
  ∀ (ps : List LegacyPrefix) (d : BitVec 5) (k : Masking) (m : MemOperand),
    EvexEffect (.evexF64x4Zmm ps d k m) [.avx512f] 64 4 512 ps d k (.mem m) ∧
    EvexEncoding (.evexF64x4Zmm ps d k m) ps 0xFD#8 0x1B#8 2#2 k (.mem m) ∧
    CommonExceptions (.evexF64x4Zmm ps d k m) ∧
    EvexBytesRaiseUd 0xFD#8 0x1B#8 0#2 false ∧
    EvexBytesRaiseUd 0xFD#8 0x1B#8 1#2 false ∧
    EvexBytesRaiseUd 0xFD#8 0x1B#8 2#2 true

/-- INDEX.md "Reading order", R25: when the bytes at `pc` decode, `step` is `exec` of that instruction; nothing is wrapped around it. -/
def Obligations.StepRunsDecodedInstruction : Prop :=
  ∀ s i rest, s.mode = .bits64 → decode (codeBytes s) = .instr i rest → step s = exec i s

/-- R25, R54, R63, R160: the bytes of a well-formed instruction at `pc` make `step` run exactly it in 64-bit mode; in real-address and virtual-8086 mode they raise #UD, but for a VEX form with R = 1 or X = 1, whose bytes are another instruction there (the reading of EVEX bytes there is log 21); in a refused mode they are refused. -/
def Obligations.StepRunsEncodedInstruction : Prop :=
  ∀ s i rest, i.wellFormed = true → codeBytes s = encode i ++ rest →
    (s.mode = .bits64 → step s = exec i s) ∧
    ((s.mode = .realAddress ∨ s.mode = .virtual8086) →
      step s = if scheme i = .vex ∧ extendsRX i = true then .refused .notThisFamily else .fault .ud) ∧
    (s.mode.rule = .refused → step s = .refused .modeNotSpecified)

/-- R60 to R77: no bit of an encoding is dropped, with every operand at every value the encoding admits and any bytes after it. -/
def Obligations.DecodeOfEncodeIsIdentity : Prop :=
  ∀ i rest, i.wellFormed = true → decode (encode i ++ rest) = .instr i rest

/-- R72, R74, R81: whatever decodes is well formed, takes as many bytes as R74 says, and does not depend on the bytes after it. -/
def Obligations.DecodedInstructionsAreWellFormed : Prop :=
  ∀ bytes i rest, decode bytes = .instr i rest → i.operandsWellFormed = true ∧
    ∃ front, bytes = front ++ rest ∧ front.length = i.length ∧ ∀ rest', decode (front ++ rest') = .instr i rest'

/-- 95_test_vectors.md T1, T9, T14, T28, 30_encoding.md R73: a few words written out from the spec. -/
def Obligations.SpecWordsDecode : Prop :=
  decode [0xC4, 0xE2, 0x79, 0x18, 0x08] = .instr (.vexSsXmmMem [] 1#4 (.base 0#4 .absent)) [] ∧
    decode [0xC4, 0x02, 0x7D, 0x19, 0xA4, 0xB5, 0x00, 0x01, 0x00, 0x00] =
      .instr (.vexSdYmmMem [] 12#4 (.sib 2#2 14#4 13#4 (.disp32 0x100#32))) [] ∧
    decode [0x62, 0xA2, 0x7D, 0x4F, 0x18, 0xCA] = .instr (.evexSsZmm [] 17#5 ⟨7#3, false⟩ (.reg 18#5)) [] ∧
    decode [0x62, 0x22, 0x7D, 0xCF, 0x1B, 0x74, 0x88, 0x01] =
      .instr (.evexF32x8Zmm [] 30#5 ⟨7#3, true⟩ (.sib 2#2 9#4 0#4 (.disp8 1#8))) []

/-- R141: vvvv other than 1111b raises #UD, for every VEX and EVEX form of the space, whatever CR0.TS and memory hold. -/
def Obligations.ReservedVvvvRaisesUd : Prop :=
  (∀ s (ps : List LegacyPrefix) b1 b2 op operand, s.mode = .bits64 →
      codeBytes s = ps.map LegacyPrefix.byte ++ 0xC4#8 :: b1 :: b2 :: op :: operand → VexSpace b1 b2 op operand →
      b2.extractLsb' 3 4 ≠ 0xF#4 → step s = .fault .ud) ∧
    (∀ s (ps : List LegacyPrefix) p0 p1 p2 op operand, s.mode = .bits64 →
      codeBytes s = ps.map LegacyPrefix.byte ++ 0x62#8 :: p0 :: p1 :: p2 :: op :: operand → EvexSpace p0 p1 op operand →
      p1.extractLsb' 3 4 ≠ 0xF#4 → step s = .fault .ud)

/-- R142: a vector length the mnemonic does not have raises #UD; VBROADCASTSS has all three. -/
def Obligations.UnavailableLengthsRaiseUd : Prop :=
  (∀ b2 : Byte, b2.getLsbD 2 = false → VexBytesRaiseUd b2 0x19#8 false ∧ VexBytesRaiseUd b2 0x1A#8 false) ∧
    (∀ p1 : Byte, EvexBytesRaiseUd p1 0x19#8 0#2 false ∧ EvexBytesRaiseUd p1 0x1A#8 0#2 false ∧
      EvexBytesRaiseUd p1 0x1B#8 0#2 false ∧ EvexBytesRaiseUd p1 0x1B#8 1#2 false) ∧
    (∀ (ps : List LegacyPrefix) (d : BitVec 5) (k : Masking) (src : Source) rest,
      (Instr.evexSsXmm ps d k src).wellFormed = true →
      decode (encode (.evexSsXmm ps d k src) ++ rest) = .instr (.evexSsXmm ps d k src) rest ∧
      decode (encode (.evexSsYmm ps d k src) ++ rest) = .instr (.evexSsYmm ps d k src) rest ∧
      decode (encode (.evexSsZmm ps d k src) ++ rest) = .instr (.evexSsZmm ps d k src) rest)

/-- R79: a register source is #UD without condition for VBROADCASTF128 only, and for the other VEX forms exactly when AVX2 is absent. -/
def Obligations.VexRegisterSourceRule : Prop :=
  (∀ b2 : Byte, VexBytesRaiseUd b2 0x1A#8 true) ∧
    (∀ (ps : List LegacyPrefix) (d r : BitVec 4) s, s.mode = .bits64 → s.osxsave = true → s.xcr0Avx = true → s.ts = false →
      ∀ i, (i = .vexSsXmmReg ps d r ∨ i = .vexSsYmmReg ps d r ∨ i = .vexSdYmmReg ps d r) →
        (exec i s = .fault .ud ↔ hasFeature s.cfg .avx2 = false) ∧
        (hasFeature s.cfg .avx2 = true → ∃ t, exec i s = .next t))

/-- R80, R81, R82 (decision D17, log 17): VEX.W = 1, EVEX.W = 1 on opcode 18H, V' = 0, b = 1, z = 1 with aaa = 000b, P1 bit 2 = 0 and L'L = 11b raise #UD. -/
def Obligations.UnassignedFieldValuesRaiseUd : Prop :=
  (∀ b2 op : Byte, b2.getLsbD 7 = true → VexBytesRaiseUd b2 op false) ∧
    (∀ (p1 : Byte) ll, p1.getLsbD 7 = true → EvexBytesRaiseUd p1 0x18#8 ll false) ∧
    ∀ s (ps : List LegacyPrefix) (p0 p1 p2 op : Byte) operand, s.mode = .bits64 →
      codeBytes s = ps.map LegacyPrefix.byte ++ 0x62#8 :: p0 :: p1 :: p2 :: op :: operand → EvexSpace p0 p1 op operand →
      (p2.getLsbD 3 = false ∨ p2.getLsbD 4 = true ∨ (p2.getLsbD 7 = true ∧ p2.extractLsb' 0 3 = 0#3) ∨ p1.getLsbD 2 = false ∨
        p2.extractLsb' 5 2 = 3#2) → step s = .fault .ud

/-- R83 (decision D17, log 17): mod = 11b on EVEX opcodes 1AH and 1BH raises #UD at every length and W. -/
def Obligations.EvexRegisterSourceRaisesUd : Prop :=
  ∀ (p1 : Byte) ll, EvexBytesRaiseUd p1 0x1A#8 ll true ∧ EvexBytesRaiseUd p1 0x1B#8 ll true

/-- R61, R145: LOCK, 66H, F2H, F3H or REX anywhere among the bytes in front raises #UD for every form; that it counts anywhere, also with an allowed byte between it and the escape, is the model's reading (DEDUCED, log 18). -/
def Obligations.ForbiddenFrontBytesRaiseUd : Prop :=
  ∀ i, ForbiddenFrontStops i

/-- R77, R64, decision D23: another escape (C5H among them), another map, pp or opcode is refused, never #UD, in 64-bit, real-address and virtual-8086 mode (the last two as log 11 reads them); so is C4H with the inverted R or X = 0 in real-address and virtual-8086 mode (R63). -/
def Obligations.BytesOutsideTheFamilyAreRefused : Prop :=
  (∀ s (ps : List LegacyPrefix) bytes, (s.mode = .bits64 ∨ s.mode = .realAddress ∨ s.mode = .virtual8086) →
      codeBytes s = ps.map LegacyPrefix.byte ++ bytes →
    ((∃ e rest, bytes = e :: rest ∧ frontByte (s.mode == .bits64) e = .other ∧ e ≠ 0xC4#8 ∧ e ≠ 0x62#8) ∨
      (∃ b1 b2 op rest, bytes = 0xC4#8 :: b1 :: b2 :: op :: rest ∧
        (b1.extractLsb' 0 5 ≠ 2#5 ∨ b2.extractLsb' 0 2 ≠ 1#2 ∨ (op ≠ 0x18#8 ∧ op ≠ 0x19#8 ∧ op ≠ 0x1A#8))) ∨
      (∃ p0 p1 p2 op rest, bytes = 0x62#8 :: p0 :: p1 :: p2 :: op :: rest ∧
        (p0.extractLsb' 0 4 ≠ 2#4 ∨ p1.extractLsb' 0 2 ≠ 1#2 ∨
          (op ≠ 0x18#8 ∧ op ≠ 0x19#8 ∧ op ≠ 0x1A#8 ∧ op ≠ 0x1B#8)))) →
    step s = .refused .notThisFamily) ∧
    ∀ s (ps : List LegacyPrefix) b1 rest, (s.mode = .realAddress ∨ s.mode = .virtual8086) →
      codeBytes s = ps.map LegacyPrefix.byte ++ 0xC4#8 :: b1 :: rest → b1.extractLsb' 6 2 ≠ 3#2 → step s = .refused .notThisFamily

/-- R74, R152 item 1: a form of more than 15 bytes raises #GP(0), before any #UD, #NM or operand fault. -/
def Obligations.LongInstructionsRaiseGp : Prop :=
  ∀ s i, s.mode = .bits64 → i.operandsWellFormed = true → maxLength < i.length →
    codeBytes s = (encode i).take maxLength → step s = .fault .gp

/-- R54, R152 item 1: an instruction that runs into a byte that cannot be fetched stops with that byte's reason, before its own #UD or operand faults. -/
def Obligations.FetchStopsWhereAByteCannotBeFetched : Prop :=
  ∀ s i n stop, s.mode = .bits64 → i.wellFormed = true → n < i.length → codeBytes s = (encode i).take n →
    s.fetchByte (s.pc + BitVec.ofNat 64 n) = .error stop → step s = stop.outcome

/-- R143, R146, R147, R152: real-address and virtual-8086 mode, a missing feature flag, OSXSAVE or XCR0 raise #UD; then TS raises #NM. -/
def Obligations.EnablingConditionsInOrder : Prop :=
  ∀ i, EnablingStops i

/-- R160, decision D3: compatibility, 32-bit protected and system-management mode are refused, by `exec` and by `step`. -/
def Obligations.OtherModesAreRefused : Prop :=
  ∀ s, (s.mode = .compatibility ∨ s.mode = .protected32 ∨ s.mode = .systemManagement) →
    step s = .refused .modeNotSpecified ∧ ∀ i, exec i s = .refused .modeNotSpecified

/-- R47, R148, R149, R150, R152: not canonical, then the page fault of the lowest-addressed refused byte, then #AC(0), for every form with a memory source, whatever the writemask holds (R43); an address is canonical when bits 63 down to VA_BITS-1 are all equal. That an operand with a byte in device memory raises #PF or #AC before it is refused is log 13, that its byte addresses wrap at the top of the address space is log 8. -/
def Obligations.MemoryExceptionsInOrder : Prop :=
  (∀ i, MemoryStops i) ∧
    ∀ vaBits (a : Word64), 1 ≤ vaBits → vaBits ≤ 64 →
      (canonical vaBits a = true ↔ ∀ b, vaBits - 1 ≤ b → b < 64 → a.getLsbD b = a.getLsbD 63)

/-- R44, R150, decisions D7 and D9 (logs 7 and 13): a misaligned m128 or m256 under alignment checking, and an operand in device memory, are refused. -/
def Obligations.UnspecifiedMemoryIsRefused : Prop :=
  ∀ i s seg la, Ready (scheme i) (needs i) s → operandAddress i s = some (seg, la) →
    (∀ k < operandBytes i, canonical s.cfg.vaBits (byteAddress la k) = true ∧ Mapped s la k) →
    (s.acEnabled = true → la.toNat % operandBytes i ≠ 0 → 8 < operandBytes i → exec i s = .refused .wideAlignmentCheck) ∧
    ((s.acEnabled = true → la.toNat % operandBytes i = 0) →
      (∃ k < operandBytes i, ∃ pa, s.translate .read (byteAddress la k) = .mapped pa true) → exec i s = .refused .deviceMemory)

/-- R43, decision D8: what stops a form does not depend on the opmask registers. -/
def Obligations.MaskDoesNotSuppressFaults : Prop :=
  ∀ i s (k : Vector Word64 8), (∀ f, exec i s = .fault f ↔ exec i { s with k := k } = .fault f) ∧
    (∀ r, exec i s = .refused r ↔ exec i { s with k := k } = .refused r)

/-- R32: a form that completes writes the destination register and `pc`, nothing else. R29, R140 and log 10 (State.atFault, DESIGN CHOICE): a #PF writes its faulting linear address to CR2 and nothing else, the other five exceptions write nothing. -/
def Obligations.FrameOfEveryForm : Prop :=
  (∀ i s t, exec i s = .next t → Frame (destination i) s t ∧ t.pc = nextPc s i) ∧
    ∀ s : State, (∀ a code, s.atFault (.pf a code) = { s with cr2 := a }) ∧ s.atFault .ud = s ∧ s.atFault .nm = s ∧
      s.atFault .ss = s ∧ s.atFault .gp = s ∧ s.atFault .ac = s

/-- R32, R34, R51, R54: one step, and any number of steps from any state, leave everything but the vector registers and `pc` as it was, the code bytes among it. The premise of log 14 (decisions D10, D19) is in the model itself: no other agent writes memory and no interrupt arrives between two steps. -/
def Obligations.ProgramTextIsConstant : Prop :=
  (∀ s t, step s = .next t → SameButVectorsAndPc s t) ∧
    ∀ n s t, Host.Core.run Sys2Proof.core n s = .next t →
      SameButVectorsAndPc s t ∧ ∀ m la, t.fetchWindow m la = s.fetchWindow m la

/-- R25, R34, R74, R173 (decision D28; launch: log 12; premise: log 14): a completed step advances `pc` by the length, 5 to 15 bytes, of the instruction the bytes at `pc` decode to; the launch puts the program where the fetch reads; and a run is final exactly where `pc` first stands past the program after a completed step, or ends at a fault or a refusal. -/
def Obligations.StraightLineRuns : Prop :=
  (∀ s t, step s = .next t → ∃ i rest, decode (codeBytes s) = .instr i rest ∧ exec i s = .next t ∧ 5 ≤ i.length ∧
      i.length ≤ 15 ∧ t.pc = s.pc + BitVec.ofNat 64 i.length) ∧
    (∀ (s : State) start code, s.mem.wf = true → s.cfg.regions = [] → code.length ≤ 2 ^ 64 →
      (s.launch start code).pc = start ∧ ∀ k (h : k < code.length),
        (s.launch start code).byteAt .fetch (byteAddress start k) = code[k]) ∧
    ∀ start len n s, EndDescribes start len n s (runProgram start len n s)

/-- R49, R47 and the canonical form of memory: every step keeps memory canonical and the address width legal. -/
def Obligations.InvariantKeptByEveryStep : Prop :=
  ∀ s t, CanonicalState s → s.mode = .bits64 → step s = .next t → CanonicalState t ∧ t.mode = .bits64

/-- R160, R146, R147: no step completes outside 64-bit mode, with OSXSAVE = 0, without the AVX state, or with TS = 1. -/
def Obligations.OnlyEnabledStatesRun : Prop :=
  ∀ s t, step s = .next t → s.mode = .bits64 ∧ s.osxsave = true ∧ s.xcr0Avx = true ∧ s.ts = false

/-- R9, R33, R170, R172: the launch state meets the invariant and the spec's default parameters (a model choice where the spec says OPEN; logs 1, 2, 4). -/
def Obligations.ResetIsTheLaunchState : Prop :=
  CanonicalState State.reset ∧ State.reset.mode = .bits64 ∧ State.reset.ts = false ∧ State.reset.acEnabled = false ∧
    State.reset.vectorEnabled .vex = true ∧ State.reset.vectorEnabled .evex = true ∧
    (∀ f, hasFeature State.reset.cfg f = true) ∧ State.reset.cfg.vaBits = 48 ∧ State.reset.cfg.regions = [] ∧
    ∀ acc la, State.reset.translate acc la = .mapped la false

/-- R13: BroadcastVEX puts the value at every element and zeros above. -/
def Obligations.BroadcastVexElements : Prop :=
  ∀ esize vl, (esize = 32 ∨ esize = 64 ∨ esize = 128) → (vl = 128 ∨ vl = 256) → ∀ (v : BitVec esize) b,
    (broadcastVex esize vl v).getLsbD b = (decide (b < vl) && v.getLsbD (b % esize))

/-- R14: BroadcastEVEX element by element, for every tuple size, length, mask and zeroing; `s` and `old` are values (decision D15). -/
def Obligations.BroadcastEvexElements : Prop :=
  ∀ esize n vl, (esize = 32 ∨ esize = 64) → (n = 1 ∨ n = 2 ∨ n = 4 ∨ n = 8) → (vl = 128 ∨ vl = 256 ∨ vl = 512) →
    ∀ (old : VReg) (v : BitVec (n * esize)) nomask (m : Word64) zeroing,
      (∀ j < vl / esize, lane esize j (broadcastEvex old v esize n vl nomask m zeroing) =
        if nomask = true ∨ m.getLsbD j = true then v.extractLsb' (j % n * esize) esize
        else if zeroing = true then 0#esize else lane esize j old) ∧
      (∀ b, vl ≤ b → (broadcastEvex old v esize n vl nomask m zeroing).getLsbD b = false)

/-- R22: of a register source only the low bits the form reads matter; another register than the destination. -/
def Obligations.UnreadSourceBitsDoNotMatter : Prop :=
  ∀ i r s t (value : VReg), sourceOf i = .reg r → r ≠ destination i →
    (∀ b < 8 * operandBytes i, value.getLsbD b = (s.readV r).getLsbD b) → exec i s = .next t →
    exec i (s.setV r value) = .next (t.setV r value)

/-- R23, R110 corner cases: only bits KL-1:0 of the selected opmask register matter, and none without a writemask. -/
def Obligations.MaskBitsAboveTheElementsDoNotMatter : Prop :=
  ∀ i s t (k : Vector Word64 8),
    ((maskingOf i).aaa = 0#3 ∨ ∀ j < maskedElements i,
      (k[(maskingOf i).aaa.toNat]'(maskingOf i).aaa.isLt).getLsbD j = (s.readK (maskingOf i).aaa).getLsbD j) →
    exec i s = .next t → exec i { s with k := k } = .next { t with k := k }

/-- R26, R27, R100, R151: the form does the same whatever MXCSR, the x87 state and the flags other than AC and VM hold. -/
def Obligations.FloatingPointStateIsNotRead : Prop :=
  ∀ i s t mx x87 (fl : Word64), fl.getLsbD 17 = s.rflags.getLsbD 17 → fl.getLsbD 18 = s.rflags.getLsbD 18 → exec i s = .next t →
    exec i { s with mxcsr := mx, x87 := x87, rflags := fl } = .next { t with mxcsr := mx, x87 := x87, rflags := fl }

/-- R42: of memory only the operand's bytes matter to a form. -/
def Obligations.OnlyTheOperandBytesAreRead : Prop :=
  ∀ i s t (mem : Memory), (∀ seg la, operandAddress i s = some (seg, la) →
      ∀ k < operandBytes i, (s.setMem mem).byteAt .read (byteAddress la k) = s.byteAt .read (byteAddress la k)) →
    exec i s = .next t → exec i (s.setMem mem) = .next (t.setMem mem)

/-- R90, R110 corner case: without a writemask the EVEX VBROADCASTSS and VBROADCASTSD forms leave the same vector registers as the VEX forms on the same source. -/
def Obligations.VexAndEvexAgreeUnmasked : Prop :=
  ∀ (ps : List LegacyPrefix) (d : BitVec 4) s t t' i i' (vexSrc evexSrc : Source),
    (sourceOf i = vexSrc ∧ sourceOf i' = evexSrc) →
    ((∃ r, vexSrc = .reg r ∧ evexSrc = .reg r) ∨ (operandAddress i s).isSome = true ∧ operandAddress i' s = operandAddress i s) →
    ((∃ m, i = .vexSsXmmMem ps d m) ∨ ∃ r, i = .vexSsXmmReg ps d r) ∧ i' = .evexSsXmm ps (d.setWidth 5) ⟨0#3, false⟩ evexSrc ∨
    ((∃ m, i = .vexSsYmmMem ps d m) ∨ ∃ r, i = .vexSsYmmReg ps d r) ∧ i' = .evexSsYmm ps (d.setWidth 5) ⟨0#3, false⟩ evexSrc ∨
    ((∃ m, i = .vexSdYmmMem ps d m) ∨ ∃ r, i = .vexSdYmmReg ps d r) ∧ i' = .evexSdYmm ps (d.setWidth 5) ⟨0#3, false⟩ evexSrc →
    exec i s = .next t → exec i' s = .next t' → t'.v = t.v

/-- R122 corner case: without a writemask VBROADCASTF32X4 ymm leaves the same vector registers as VBROADCASTF128 on the same memory. -/
def Obligations.F32x4UnmaskedIsF128 : Prop :=
  ∀ (ps : List LegacyPrefix) (d : BitVec 4) m m' s t t',
    operandAddress (.evexF32x4Ymm ps (d.setWidth 5) ⟨0#3, false⟩ m') s = operandAddress (.vexF128YmmMem ps d m) s →
    exec (.vexF128YmmMem ps d m) s = .next t → exec (.evexF32x4Ymm ps (d.setWidth 5) ⟨0#3, false⟩ m') s = .next t' → t'.v = t.v

/-- R84, R112 corner case: with every mask bit 0 and merging, the elements are kept but the bits above the vector length are still zeroed and `pc` advances; for VBROADCASTF64X2 ymm those zeros are decision D16 (log 16). -/
def Obligations.AllZeroMergingMaskIsNotANop : Prop :=
  ∀ i s t, scheme i = .evex → (maskingOf i).aaa ≠ 0#3 → (maskingOf i).z = false →
    (∀ j < maskedElements i, (s.readK (maskingOf i).aaa).getLsbD j = false) → exec i s = .next t →
    (∀ b < 512, (t.readV (destination i)).getLsbD b = (decide (b < vectorLength i) && (s.readV (destination i)).getLsbD b)) ∧
      t.pc = nextPc s i

/-- R46, R72, R73: the displacement is 0, the sign-extended disp8 times the factor N, or the sign-extended disp32, never scaled; and the four shapes of a memory operand with 64-bit address size. -/
def Obligations.EffectiveAddressCases : Prop :=
  ∀ (s : State) (ps : List LegacyPrefix) nextpc n, addressSize32 ps = false →
    (dispValue n .absent = 0#64 ∧ (∀ v, dispValue n (.disp8 v) = v.signExtend 64 * BitVec.ofNat 64 n) ∧
      ∀ v, dispValue n (.disp32 v) = v.signExtend 64) ∧
    (∀ b d, s.effectiveAddress ps nextpc n (.base b d) = s.readX b + dispValue n d) ∧
    (∀ v, s.effectiveAddress ps nextpc n (.ripRel v) = nextpc + v.signExtend 64) ∧
    (∀ ss x b d, x ≠ 4#4 →
      s.effectiveAddress ps nextpc n (.sib ss x b d) = s.readX b + s.readX x * BitVec.ofNat 64 (2 ^ ss.toNat) + dispValue n d) ∧
    (∀ ss b d, s.effectiveAddress ps nextpc n (.sib ss 4#4 b d) = s.readX b + dispValue n d) ∧
    (∀ ss x v, x ≠ 4#4 →
      s.effectiveAddress ps nextpc n (.sibNoBase ss x v) = s.readX x * BitVec.ofNat 64 (2 ^ ss.toNat) + v.signExtend 64) ∧
    (∀ ss v, s.effectiveAddress ps nextpc n (.sibNoBase ss 4#4 v) = v.signExtend 64)

/-- R48: with 67H the low halves of the registers are added modulo 2^32 and the sum is zero-extended; RIP-relative takes the low 32 bits of the sum. -/
def Obligations.AddressSize32UsesLowHalves : Prop :=
  ∀ (s : State) (ps : List LegacyPrefix) nextpc n, addressSize32 ps = true →
    let lo := fun a : Word64 => a.setWidth 32
    (dispValue n .absent = 0#64 ∧ (∀ v, dispValue n (.disp8 v) = v.signExtend 64 * BitVec.ofNat 64 n) ∧
      ∀ v, dispValue n (.disp32 v) = v.signExtend 64) ∧
    (∀ b d, s.effectiveAddress ps nextpc n (.base b d) = (lo (s.readX b) + lo (dispValue n d)).setWidth 64) ∧
    (∀ v, s.effectiveAddress ps nextpc n (.ripRel v) = (lo (nextpc + v.signExtend 64)).setWidth 64) ∧
    (∀ ss x b d, x ≠ 4#4 → s.effectiveAddress ps nextpc n (.sib ss x b d) =
      (lo (s.readX b) + lo (s.readX x) * BitVec.ofNat 32 (2 ^ ss.toNat) + lo (dispValue n d)).setWidth 64) ∧
    (∀ ss b d, s.effectiveAddress ps nextpc n (.sib ss 4#4 b d) = (lo (s.readX b) + lo (dispValue n d)).setWidth 64) ∧
    (∀ ss x v, x ≠ 4#4 → s.effectiveAddress ps nextpc n (.sibNoBase ss x v) =
      (lo (s.readX x) * BitVec.ofNat 32 (2 ^ ss.toNat) + v).setWidth 64) ∧
    (∀ ss v, s.effectiveAddress ps nextpc n (.sibNoBase ss 4#4 v) = v.setWidth 64)

/-- R47, R61 (log 9): the last FS or GS override wins and the other overrides change nothing; without one, base RSP or RBP means SS, else DS; only FS and GS have a base; the linear address is the segment base plus the effective address, modulo 2^64. -/
def Obligations.SegmentOfAMemoryOperand : Prop :=
  ∀ (a b : List LegacyPrefix) m, (∀ p ∈ b, p ≠ .fs ∧ p ≠ .gs) →
    segmentOf (a ++ .fs :: b) m = .fs ∧ segmentOf (a ++ .gs :: b) m = .gs ∧
    segmentOf b m = (if baseRegister m = some 4#4 ∨ baseRegister m = some 5#4 then .ss else .ds) ∧
    ∀ s : State, s.segmentBase .ds = 0#64 ∧ s.segmentBase .ss = 0#64 ∧ s.segmentBase .fs = s.fsBase ∧ s.segmentBase .gs = s.gsBase ∧
      ∀ (ps : List LegacyPrefix) nextpc n (o : MemOperand),
        s.linearAddress ps nextpc n o = s.segmentBase (segmentOf ps o) + s.effectiveAddress ps nextpc n o

/-- R73: in every EVEX form a disp8 v reads where a disp32 of v times the operand's bytes would, and in every VEX form where an unscaled one would; the value itself is 0, the sign-extended disp8 times that factor, or the sign-extended disp32. -/
def Obligations.CompressedDisplacement : Prop :=
  ∀ i (s : State) b (v : BitVec 8) nextpc (ps : List LegacyPrefix),
    dispScale i = (if scheme i = .vex then 1 else operandBytes i) ∧ dispValue (dispScale i) .absent = 0#64 ∧
    dispValue (dispScale i) (.disp8 v) =
      v.signExtend 64 * BitVec.ofNat 64 (if scheme i = .vex then 1 else operandBytes i) ∧
    (∀ w : BitVec 32, dispValue (dispScale i) (.disp32 w) = w.signExtend 64) ∧
    s.linearAddress ps nextpc (dispScale i) (.base b (.disp8 v)) =
      s.linearAddress ps nextpc (dispScale i)
        (.base b (.disp32 (v.signExtend 32 * BitVec.ofNat 32 (if scheme i = .vex then 1 else operandBytes i)))) ∧
    s.linearAddress ps nextpc (dispScale i) (.sib 0#2 4#4 b (.disp8 v)) =
      s.linearAddress ps nextpc (dispScale i) (.base b (.disp8 v))

/-- R140: vector numbers and error codes. -/
def Obligations.ExceptionVectorsAndCodes : Prop :=
  Fault.vector .ud = 6 ∧ Fault.vector .nm = 7 ∧ Fault.vector .ss = 12 ∧ Fault.vector .gp = 13 ∧ Fault.vector .ac = 17 ∧
    Fault.errorCode .ud = none ∧ Fault.errorCode .nm = none ∧ Fault.errorCode .ss = some 0#32 ∧
    Fault.errorCode .gp = some 0#32 ∧ Fault.errorCode .ac = some 0#32 ∧
    ∀ a code, Fault.vector (.pf a code) = 14 ∧ Fault.errorCode (.pf a code) = some code

/-- R140, R149: the fault code of a data read has P for a present page, W/R = 0, U/S at CPL 3, I/D = 0; the region that holds the address decides (log 6). -/
def Obligations.PageFaultCodeOfARead : Prop :=
  ∀ (s : State) la code, s.translate .read la = .pageFault code →
    ∃ r ∈ s.cfg.regions, regionHolds r la = true ∧
      code.getLsbD 0 = r.present ∧ code.getLsbD 1 = false ∧ (code.getLsbD 2 = true ↔ s.cpl = 3#2) ∧ code.getLsbD 4 = false ∧
      (r.present = true → r.user = false ∧ s.cpl = 3#2)
end

