-- ==== Sys2Proof/Laws/Decode.lean ====
section
/-! SUPPORT. The fields of every encoded byte read back, the operand readers against the operand encoders, and the legacy bytes skipped: the pieces of which any statement about decoding is made. -/

namespace Sys2Proof

/-! ## Fields of a byte -/

@[simp] theorem fieldsByte_hi (hi : BitVec 2) (mid lo : BitVec 3) : (fieldsByte hi mid lo).extractLsb' 6 2 = hi := by
  revert hi mid lo; decide

@[simp] theorem fieldsByte_mid (hi : BitVec 2) (mid lo : BitVec 3) : (fieldsByte hi mid lo).extractLsb' 3 3 = mid := by
  revert hi mid lo; decide

@[simp] theorem fieldsByte_lo (hi : BitVec 2) (mid lo : BitVec 3) : (fieldsByte hi mid lo).extractLsb' 0 3 = lo := by
  revert hi mid lo; decide

theorem vexByte1_fields (r x b : Bool) :
    (vexByte1 r x b).extractLsb' 0 5 = 2#5 ∧ (vexByte1 r x b).getLsbD 7 = !r ∧ (vexByte1 r x b).getLsbD 6 = !x ∧
      (vexByte1 r x b).getLsbD 5 = !b := by revert r x b; decide

theorem vexByte2_fields (l : Bool) :
    (vexByte2 l).extractLsb' 0 2 = 1#2 ∧ (vexByte2 l).extractLsb' 3 4 = 0xF#4 ∧ (vexByte2 l).getLsbD 7 = false ∧
      (vexByte2 l).getLsbD 2 = l := by revert l; decide

theorem evexP0_fields (r x b r' : Bool) :
    (evexP0 r x b r').extractLsb' 0 4 = 2#4 ∧ (evexP0 r x b r').getLsbD 7 = !r ∧ (evexP0 r x b r').getLsbD 6 = !x ∧
      (evexP0 r x b r').getLsbD 5 = !b ∧ (evexP0 r x b r').getLsbD 4 = !r' := by revert r x b r'; decide

theorem evexP1_fields (w : Bool) :
    (evexP1 w).extractLsb' 0 2 = 1#2 ∧ (evexP1 w).extractLsb' 3 4 = 0xF#4 ∧ (evexP1 w).getLsbD 2 = true ∧
      (evexP1 w).getLsbD 7 = w := by revert w; decide

theorem evexP2_fields (k : Masking) (ll : BitVec 2) :
    (evexP2 k ll).extractLsb' 0 3 = k.aaa ∧ (evexP2 k ll).getLsbD 3 = true ∧ (evexP2 k ll).getLsbD 4 = false ∧
      (evexP2 k ll).extractLsb' 5 2 = ll ∧ (evexP2 k ll).getLsbD 7 = k.z := by
  obtain ⟨aaa, z⟩ := k; revert aaa z ll; decide

/-- A 4-bit register number is its extension bit and its low field. -/
@[simp] theorem cons_low4 (r : BitVec 4) : BitVec.cons r[3] (r.extractLsb' 0 3) = r := by revert r; decide

/-- A 5-bit register number is its two extension bits and its low field. -/
@[simp] theorem cons_low5 (r : BitVec 5) :
    BitVec.cons r[4] (BitVec.cons r[3] (r.extractLsb' 0 3)) = r := by revert r; decide

/-! ## Displacements and memory operands -/

@[simp] theorem takeDisp32_bytes (v : BitVec 32) (rest : List Byte) :
    takeDisp32 (disp32Bytes v ++ rest) = some (v, rest) := by
  have : v.extractLsb' 24 8 ++ v.extractLsb' 16 8 ++ v.extractLsb' 8 8 ++ v.extractLsb' 0 8 = v := by
    apply BitVec.eq_of_getLsbD_eq
    intro i hi
    have : i < 8 ∨ (8 ≤ i ∧ i < 16) ∨ (16 ≤ i ∧ i < 24) ∨ 24 ≤ i := by omega
    simp only [BitVec.getLsbD_append, BitVec.getLsbD_extractLsb']
    rcases this with h | ⟨h1, h2⟩ | ⟨h1, h2⟩ | h
    · simp [h]
    · simp [show ¬ i < 8 by omega, show i - 8 < 8 by omega, show 8 + (i - 8) = i by omega]
    · simp [show ¬ i < 8 by omega, show ¬ i - 8 < 8 by omega, show i - 8 - 8 < 8 by omega,
        show 16 + (i - 8 - 8) = i by omega]
    · simp [show ¬ i < 8 by omega, show ¬ i - 8 < 8 by omega, show ¬ i - 8 - 8 < 8 by omega,
        show i - 8 - 8 - 8 < 8 by omega, show 24 + (i - 8 - 8 - 8) = i by omega]
  simp [takeDisp32, disp32Bytes, this]

/-- The displacement a ModRM.mod announces reads back. -/
@[simp] theorem takeDisp_bytes (d : Disp) (rest : List Byte) : takeDisp d.md (d.bytes ++ rest) = some (d, rest) := by
  cases d <;> simp [takeDisp, Disp.md, Disp.bytes]

theorem Disp.md_ne_three (d : Disp) : d.md ≠ 3#2 := by cases d <;> simp [Disp.md]

theorem Disp.md_eq_zero_iff (d : Disp) : d.md = 0#2 ↔ d = .absent := by cases d <;> simp [Disp.md]

theorem MemOperand.md_ne_three (m : MemOperand) : m.fields.md ≠ 3#2 := by
  cases m <;> simp [MemOperand.fields, Disp.md_ne_three]

/-- A well-formed memory operand reads back from its fields. -/
theorem takeMem_fields (m : MemOperand) (rest : List Byte) (h : m.wellFormed = true) :
    takeMem m.fields.md m.fields.rm m.fields.x m.fields.b (m.fields.tail ++ rest) = some (m, rest) := by
  cases m with
  | base b d =>
    simp only [MemOperand.wellFormed, Bool.and_eq_true, bne_iff_ne, ne_eq, Bool.or_eq_true] at h
    have h5 : ¬ (d.md = 0#2 ∧ b.extractLsb' 0 3 = 5#3) := by
      rw [Disp.md_eq_zero_iff]; rintro ⟨h1, h2⟩; exact h.2.elim (fun x => x h1) (fun x => x h2)
    simp [takeMem, MemOperand.fields, h.1, h5]
  | ripRel v => simp [takeMem, MemOperand.fields]
  | sib ss i b d =>
    simp only [MemOperand.wellFormed, bne_iff_ne, ne_eq, Bool.or_eq_true] at h
    have h5 : ¬ (d.md = 0#2 ∧ b.extractLsb' 0 3 = 5#3) := by
      rw [Disp.md_eq_zero_iff]; rintro ⟨h1, h2⟩; exact h.elim (fun x => x h1) (fun x => x h2)
    simp [takeMem, MemOperand.fields, h5]
  | sibNoBase ss i v => simp [takeMem, MemOperand.fields]

/-- ModRM, SIB and displacement of a well-formed memory operand read back. -/
theorem takeModRM_mem (m : MemOperand) (reg : BitVec 3) (rest : List Byte) (h : m.wellFormed = true) :
    takeModRM m.fields.x m.fields.b (fieldsByte m.fields.md reg m.fields.rm :: (m.fields.tail ++ rest)) =
      some (reg, .mem m, rest) := by
  simp [takeModRM, MemOperand.md_ne_three, takeMem_fields m rest h]

/-- ModRM with a register operand reads back. -/
theorem takeModRM_reg (x b : Bool) (reg rm : BitVec 3) (rest : List Byte) :
    takeModRM x b (fieldsByte 3#2 reg rm :: rest) = some (reg, .reg rm, rest) := by
  simp [takeModRM]

/-! ## Legacy bytes in front -/

/-- Each allowed byte is read as itself, in 64-bit mode and outside it. -/
@[simp] theorem frontByte_byte (mode64 : Bool) (p : LegacyPrefix) : frontByte mode64 p.byte = .allowed p := by
  cases p <;> rfl

theorem frontByte_vex (mode64 : Bool) : frontByte mode64 0xC4#8 = .other := by cases mode64 <;> decide

theorem frontByte_evex (mode64 : Bool) : frontByte mode64 0x62#8 = .other := by cases mode64 <;> decide

/-- The allowed bytes in front are collected in order. -/
theorem scanFront_bytes (mode64 : Bool) (ps : List LegacyPrefix) (e : Byte) (bs : List Byte)
    (he : frontByte mode64 e = .other) :
    scanFront mode64 (ps.map LegacyPrefix.byte ++ e :: bs) = ⟨ps, false, e :: bs⟩ := by
  induction ps with
  | nil => simp [scanFront, he]
  | cons p ps ih => simp [scanFront, ih]

/-- Bytes that open with C4H after allowed legacy bytes are read as a VEX form. -/
theorem decodeIn_vex (mode64 : Bool) (ps : List LegacyPrefix) (bs : List Byte) :
    decodeIn mode64 (ps.map LegacyPrefix.byte ++ 0xC4#8 :: bs) = decodeVex mode64 ps false bs := by
  simp [decodeIn, scanFront_bytes mode64 ps _ bs (frontByte_vex mode64)]

/-- Outside 64-bit mode C4H with an inverted R or X of 0 opens another instruction, whatever follows. -/
theorem decodeIn_vex_other (ps : List LegacyPrefix) (b1 : Byte) (bs : List Byte) (h : b1.extractLsb' 6 2 ≠ 3#2) :
    decodeIn false (ps.map LegacyPrefix.byte ++ 0xC4#8 :: b1 :: bs) = .notThisFamily := by
  simp [decodeIn_vex, decodeVex, h]

/-- Bytes that open with 62H after allowed legacy bytes are read as an EVEX form. -/
theorem decodeIn_evex (mode64 : Bool) (ps : List LegacyPrefix) (bs : List Byte) :
    decodeIn mode64 (ps.map LegacyPrefix.byte ++ 0x62#8 :: bs) = decodeEvex ps false bs := by
  simp [decodeIn, scanFront_bytes mode64 ps _ bs (frontByte_evex mode64)]

/-! ## Lengths -/

@[simp] theorem disp32Bytes_length (v : BitVec 32) : (disp32Bytes v).length = 4 := rfl

@[simp] theorem Disp.bytes_length (d : Disp) : d.bytes.length = d.size := by cases d <;> rfl

@[simp] theorem MemOperand.tail_length (m : MemOperand) : m.fields.tail.length = m.size := by
  cases m <;> simp [MemOperand.fields, MemOperand.size, Nat.add_comm]

@[simp] theorem Source.tail_length (src : Source) : src.fields.tail.length = src.size := by
  cases src <;> simp [Source.fields, Source.size]

@[simp] theorem encodeVex_length (ps : List LegacyPrefix) (l : Bool) (op : Byte) (d : BitVec 4) (f : RmFields) :
    (encodeVex ps l op d f).length = vexLength ps f.tail.length := by
  simp [encodeVex, vexLength]; omega

@[simp] theorem encodeEvex_length (ps : List LegacyPrefix) (w : Bool) (ll : BitVec 2) (op : Byte) (d : BitVec 5)
    (k : Masking) (f : RmFields) : (encodeEvex ps w ll op d k f).length = evexLength ps f.tail.length := by
  simp [encodeEvex, evexLength]; omega

end Sys2Proof
end

