-- ==== Sys2Proof/Laws/State.lean ====
section
/-! SUPPORT. One lemma for each field under each update of the state, and register reads under updates, so that no proof unfolds a record update. -/

namespace Sys2Proof.Machine

@[simp] theorem State.setV_v (s : State) (d : BitVec 5) (value : VReg) : (s.setV d value).v = s.v.set d.toNat value d.isLt := rfl
@[simp] theorem State.setV_k (s : State) (d : BitVec 5) (value : VReg) : (s.setV d value).k = s.k := rfl
@[simp] theorem State.setV_x (s : State) (d : BitVec 5) (value : VReg) : (s.setV d value).x = s.x := rfl
@[simp] theorem State.setV_pc (s : State) (d : BitVec 5) (value : VReg) : (s.setV d value).pc = s.pc := rfl
@[simp] theorem State.setV_rflags (s : State) (d : BitVec 5) (value : VReg) : (s.setV d value).rflags = s.rflags := rfl
@[simp] theorem State.setV_mxcsr (s : State) (d : BitVec 5) (value : VReg) : (s.setV d value).mxcsr = s.mxcsr := rfl
@[simp] theorem State.setV_x87 (s : State) (d : BitVec 5) (value : VReg) : (s.setV d value).x87 = s.x87 := rfl
@[simp] theorem State.setV_cr0 (s : State) (d : BitVec 5) (value : VReg) : (s.setV d value).cr0 = s.cr0 := rfl
@[simp] theorem State.setV_cr2 (s : State) (d : BitVec 5) (value : VReg) : (s.setV d value).cr2 = s.cr2 := rfl
@[simp] theorem State.setV_cr4 (s : State) (d : BitVec 5) (value : VReg) : (s.setV d value).cr4 = s.cr4 := rfl
@[simp] theorem State.setV_xcr0 (s : State) (d : BitVec 5) (value : VReg) : (s.setV d value).xcr0 = s.xcr0 := rfl
@[simp] theorem State.setV_cpl (s : State) (d : BitVec 5) (value : VReg) : (s.setV d value).cpl = s.cpl := rfl
@[simp] theorem State.setV_lma (s : State) (d : BitVec 5) (value : VReg) : (s.setV d value).lma = s.lma := rfl
@[simp] theorem State.setV_csL (s : State) (d : BitVec 5) (value : VReg) : (s.setV d value).csL = s.csL := rfl
@[simp] theorem State.setV_smm (s : State) (d : BitVec 5) (value : VReg) : (s.setV d value).smm = s.smm := rfl
@[simp] theorem State.setV_fsBase (s : State) (d : BitVec 5) (value : VReg) : (s.setV d value).fsBase = s.fsBase := rfl
@[simp] theorem State.setV_gsBase (s : State) (d : BitVec 5) (value : VReg) : (s.setV d value).gsBase = s.gsBase := rfl
@[simp] theorem State.setV_mem (s : State) (d : BitVec 5) (value : VReg) : (s.setV d value).mem = s.mem := rfl
@[simp] theorem State.setV_cfg (s : State) (d : BitVec 5) (value : VReg) : (s.setV d value).cfg = s.cfg := rfl

@[simp] theorem State.setPc_v (s : State) (target : Word64) : (s.setPc target).v = s.v := rfl
@[simp] theorem State.setPc_k (s : State) (target : Word64) : (s.setPc target).k = s.k := rfl
@[simp] theorem State.setPc_x (s : State) (target : Word64) : (s.setPc target).x = s.x := rfl
@[simp] theorem State.setPc_pc (s : State) (target : Word64) : (s.setPc target).pc = target := rfl
@[simp] theorem State.setPc_rflags (s : State) (target : Word64) : (s.setPc target).rflags = s.rflags := rfl
@[simp] theorem State.setPc_mxcsr (s : State) (target : Word64) : (s.setPc target).mxcsr = s.mxcsr := rfl
@[simp] theorem State.setPc_x87 (s : State) (target : Word64) : (s.setPc target).x87 = s.x87 := rfl
@[simp] theorem State.setPc_cr0 (s : State) (target : Word64) : (s.setPc target).cr0 = s.cr0 := rfl
@[simp] theorem State.setPc_cr2 (s : State) (target : Word64) : (s.setPc target).cr2 = s.cr2 := rfl
@[simp] theorem State.setPc_cr4 (s : State) (target : Word64) : (s.setPc target).cr4 = s.cr4 := rfl
@[simp] theorem State.setPc_xcr0 (s : State) (target : Word64) : (s.setPc target).xcr0 = s.xcr0 := rfl
@[simp] theorem State.setPc_cpl (s : State) (target : Word64) : (s.setPc target).cpl = s.cpl := rfl
@[simp] theorem State.setPc_lma (s : State) (target : Word64) : (s.setPc target).lma = s.lma := rfl
@[simp] theorem State.setPc_csL (s : State) (target : Word64) : (s.setPc target).csL = s.csL := rfl
@[simp] theorem State.setPc_smm (s : State) (target : Word64) : (s.setPc target).smm = s.smm := rfl
@[simp] theorem State.setPc_fsBase (s : State) (target : Word64) : (s.setPc target).fsBase = s.fsBase := rfl
@[simp] theorem State.setPc_gsBase (s : State) (target : Word64) : (s.setPc target).gsBase = s.gsBase := rfl
@[simp] theorem State.setPc_mem (s : State) (target : Word64) : (s.setPc target).mem = s.mem := rfl
@[simp] theorem State.setPc_cfg (s : State) (target : Word64) : (s.setPc target).cfg = s.cfg := rfl

@[simp] theorem State.setMem_v (s : State) (m : Memory) : (s.setMem m).v = s.v := rfl
@[simp] theorem State.setMem_k (s : State) (m : Memory) : (s.setMem m).k = s.k := rfl
@[simp] theorem State.setMem_x (s : State) (m : Memory) : (s.setMem m).x = s.x := rfl
@[simp] theorem State.setMem_pc (s : State) (m : Memory) : (s.setMem m).pc = s.pc := rfl
@[simp] theorem State.setMem_rflags (s : State) (m : Memory) : (s.setMem m).rflags = s.rflags := rfl
@[simp] theorem State.setMem_mxcsr (s : State) (m : Memory) : (s.setMem m).mxcsr = s.mxcsr := rfl
@[simp] theorem State.setMem_x87 (s : State) (m : Memory) : (s.setMem m).x87 = s.x87 := rfl
@[simp] theorem State.setMem_cr0 (s : State) (m : Memory) : (s.setMem m).cr0 = s.cr0 := rfl
@[simp] theorem State.setMem_cr2 (s : State) (m : Memory) : (s.setMem m).cr2 = s.cr2 := rfl
@[simp] theorem State.setMem_cr4 (s : State) (m : Memory) : (s.setMem m).cr4 = s.cr4 := rfl
@[simp] theorem State.setMem_xcr0 (s : State) (m : Memory) : (s.setMem m).xcr0 = s.xcr0 := rfl
@[simp] theorem State.setMem_cpl (s : State) (m : Memory) : (s.setMem m).cpl = s.cpl := rfl
@[simp] theorem State.setMem_lma (s : State) (m : Memory) : (s.setMem m).lma = s.lma := rfl
@[simp] theorem State.setMem_csL (s : State) (m : Memory) : (s.setMem m).csL = s.csL := rfl
@[simp] theorem State.setMem_smm (s : State) (m : Memory) : (s.setMem m).smm = s.smm := rfl
@[simp] theorem State.setMem_fsBase (s : State) (m : Memory) : (s.setMem m).fsBase = s.fsBase := rfl
@[simp] theorem State.setMem_gsBase (s : State) (m : Memory) : (s.setMem m).gsBase = s.gsBase := rfl
@[simp] theorem State.setMem_mem (s : State) (m : Memory) : (s.setMem m).mem = m := rfl
@[simp] theorem State.setMem_cfg (s : State) (m : Memory) : (s.setMem m).cfg = s.cfg := rfl

@[simp] theorem State.setCr2_v (s : State) (a : Word64) : (s.setCr2 a).v = s.v := rfl
@[simp] theorem State.setCr2_k (s : State) (a : Word64) : (s.setCr2 a).k = s.k := rfl
@[simp] theorem State.setCr2_x (s : State) (a : Word64) : (s.setCr2 a).x = s.x := rfl
@[simp] theorem State.setCr2_pc (s : State) (a : Word64) : (s.setCr2 a).pc = s.pc := rfl
@[simp] theorem State.setCr2_rflags (s : State) (a : Word64) : (s.setCr2 a).rflags = s.rflags := rfl
@[simp] theorem State.setCr2_mxcsr (s : State) (a : Word64) : (s.setCr2 a).mxcsr = s.mxcsr := rfl
@[simp] theorem State.setCr2_x87 (s : State) (a : Word64) : (s.setCr2 a).x87 = s.x87 := rfl
@[simp] theorem State.setCr2_cr0 (s : State) (a : Word64) : (s.setCr2 a).cr0 = s.cr0 := rfl
@[simp] theorem State.setCr2_cr2 (s : State) (a : Word64) : (s.setCr2 a).cr2 = a := rfl
@[simp] theorem State.setCr2_cr4 (s : State) (a : Word64) : (s.setCr2 a).cr4 = s.cr4 := rfl
@[simp] theorem State.setCr2_xcr0 (s : State) (a : Word64) : (s.setCr2 a).xcr0 = s.xcr0 := rfl
@[simp] theorem State.setCr2_cpl (s : State) (a : Word64) : (s.setCr2 a).cpl = s.cpl := rfl
@[simp] theorem State.setCr2_lma (s : State) (a : Word64) : (s.setCr2 a).lma = s.lma := rfl
@[simp] theorem State.setCr2_csL (s : State) (a : Word64) : (s.setCr2 a).csL = s.csL := rfl
@[simp] theorem State.setCr2_smm (s : State) (a : Word64) : (s.setCr2 a).smm = s.smm := rfl
@[simp] theorem State.setCr2_fsBase (s : State) (a : Word64) : (s.setCr2 a).fsBase = s.fsBase := rfl
@[simp] theorem State.setCr2_gsBase (s : State) (a : Word64) : (s.setCr2 a).gsBase = s.gsBase := rfl
@[simp] theorem State.setCr2_mem (s : State) (a : Word64) : (s.setCr2 a).mem = s.mem := rfl
@[simp] theorem State.setCr2_cfg (s : State) (a : Word64) : (s.setCr2 a).cfg = s.cfg := rfl

/-- A vector register reads back what was written to it. -/
@[simp] theorem State.readV_setV_same (s : State) (d : BitVec 5) (value : VReg) : (s.setV d value).readV d = value := by
  simp [State.readV, State.setV]

/-- Writing one vector register leaves the others alone. -/
theorem State.readV_setV_other (s : State) {d i : BitVec 5} (value : VReg) (h : i ≠ d) :
    (s.setV d value).readV i = s.readV i := by
  have hn : d.toNat ≠ i.toNat := fun e => h (BitVec.eq_of_toNat_eq e.symm)
  simp [State.readV, State.setV, hn]

/-- Two writes to one register: the last one stands. -/
theorem State.setV_setV (s : State) (d : BitVec 5) (a b : VReg) : (s.setV d a).setV d b = s.setV d b := by
  simp [State.setV]

@[simp] theorem State.readV_setPc (s : State) (target : Word64) (i : BitVec 5) : (s.setPc target).readV i = s.readV i := rfl
@[simp] theorem State.readV_setMem (s : State) (m : Memory) (i : BitVec 5) : (s.setMem m).readV i = s.readV i := rfl
@[simp] theorem State.readV_setCr2 (s : State) (a : Word64) (i : BitVec 5) : (s.setCr2 a).readV i = s.readV i := rfl
@[simp] theorem State.readK_setV (s : State) (d : BitVec 5) (value : VReg) (i : BitVec 3) : (s.setV d value).readK i = s.readK i := rfl
@[simp] theorem State.readK_setPc (s : State) (target : Word64) (i : BitVec 3) : (s.setPc target).readK i = s.readK i := rfl
@[simp] theorem State.readK_setMem (s : State) (m : Memory) (i : BitVec 3) : (s.setMem m).readK i = s.readK i := rfl
@[simp] theorem State.readK_setCr2 (s : State) (a : Word64) (i : BitVec 3) : (s.setCr2 a).readK i = s.readK i := rfl
@[simp] theorem State.readX_setV (s : State) (d : BitVec 5) (value : VReg) (i : BitVec 4) : (s.setV d value).readX i = s.readX i := rfl
@[simp] theorem State.readX_setPc (s : State) (target : Word64) (i : BitVec 4) : (s.setPc target).readX i = s.readX i := rfl
@[simp] theorem State.readX_setMem (s : State) (m : Memory) (i : BitVec 4) : (s.setMem m).readX i = s.readX i := rfl
@[simp] theorem State.readX_setCr2 (s : State) (a : Word64) (i : BitVec 4) : (s.setCr2 a).readX i = s.readX i := rfl

/-! ## Completion -/

@[simp] theorem retire_pc (s : State) (d : BitVec 5) (value : VReg) (len : Nat) :
    (retire s d value len).pc = s.pc + BitVec.ofNat 64 len := rfl

@[simp] theorem retire_v (s : State) (d : BitVec 5) (value : VReg) (len : Nat) :
    (retire s d value len).v = s.v.set d.toNat value d.isLt := rfl

@[simp] theorem retire_k (s : State) (d : BitVec 5) (value : VReg) (len : Nat) : (retire s d value len).k = s.k := rfl
@[simp] theorem retire_x (s : State) (d : BitVec 5) (value : VReg) (len : Nat) : (retire s d value len).x = s.x := rfl
@[simp] theorem retire_rflags (s : State) (d : BitVec 5) (value : VReg) (len : Nat) : (retire s d value len).rflags = s.rflags := rfl
@[simp] theorem retire_mxcsr (s : State) (d : BitVec 5) (value : VReg) (len : Nat) : (retire s d value len).mxcsr = s.mxcsr := rfl
@[simp] theorem retire_x87 (s : State) (d : BitVec 5) (value : VReg) (len : Nat) : (retire s d value len).x87 = s.x87 := rfl
@[simp] theorem retire_cr0 (s : State) (d : BitVec 5) (value : VReg) (len : Nat) : (retire s d value len).cr0 = s.cr0 := rfl
@[simp] theorem retire_cr2 (s : State) (d : BitVec 5) (value : VReg) (len : Nat) : (retire s d value len).cr2 = s.cr2 := rfl
@[simp] theorem retire_cr4 (s : State) (d : BitVec 5) (value : VReg) (len : Nat) : (retire s d value len).cr4 = s.cr4 := rfl
@[simp] theorem retire_xcr0 (s : State) (d : BitVec 5) (value : VReg) (len : Nat) : (retire s d value len).xcr0 = s.xcr0 := rfl
@[simp] theorem retire_cpl (s : State) (d : BitVec 5) (value : VReg) (len : Nat) : (retire s d value len).cpl = s.cpl := rfl
@[simp] theorem retire_lma (s : State) (d : BitVec 5) (value : VReg) (len : Nat) : (retire s d value len).lma = s.lma := rfl
@[simp] theorem retire_csL (s : State) (d : BitVec 5) (value : VReg) (len : Nat) : (retire s d value len).csL = s.csL := rfl
@[simp] theorem retire_smm (s : State) (d : BitVec 5) (value : VReg) (len : Nat) : (retire s d value len).smm = s.smm := rfl
@[simp] theorem retire_fsBase (s : State) (d : BitVec 5) (value : VReg) (len : Nat) : (retire s d value len).fsBase = s.fsBase := rfl
@[simp] theorem retire_gsBase (s : State) (d : BitVec 5) (value : VReg) (len : Nat) : (retire s d value len).gsBase = s.gsBase := rfl
@[simp] theorem retire_mem (s : State) (d : BitVec 5) (value : VReg) (len : Nat) : (retire s d value len).mem = s.mem := rfl
@[simp] theorem retire_cfg (s : State) (d : BitVec 5) (value : VReg) (len : Nat) : (retire s d value len).cfg = s.cfg := rfl

/-- The destination of a completed form reads back its new value. -/
@[simp] theorem retire_readV_same (s : State) (d : BitVec 5) (value : VReg) (len : Nat) :
    (retire s d value len).readV d = value := by simp [retire]

/-- Every other vector register is as before. -/
theorem retire_readV_other (s : State) {d i : BitVec 5} (value : VReg) (len : Nat) (h : i ≠ d) :
    (retire s d value len).readV i = s.readV i := by simp [retire, State.readV_setV_other s value h]

/-- Retiring leaves the operating mode. -/
@[simp] theorem retire_mode (s : State) (d : BitVec 5) (value : VReg) (len : Nat) : (retire s d value len).mode = s.mode := rfl

end Sys2Proof.Machine
end

