-- ==== Sys2Proof/Laws/Ops.lean ====
section
/-! SUPPORT. One lemma for each shared operation that says what it answers: assembled values, the enabling check, a memory read, and the one operation every form is a line over. -/

namespace Sys2Proof.Machine

open Sys2Proof.Safety

/-! ## Assembled values -/

/-- Bit `i` of an assembled value is bit `i % e` of element `i / e`. -/
theorem assemble_getLsbD (w e : Nat) (f : Nat → BitVec e) (n i : Nat) (he : 0 < e) :
    (assemble w e f n).getLsbD i = (decide (i < n * e) && decide (i < w) && (f (i / e)).getLsbD (i % e)) := by
  induction n with
  | zero => simp [assemble]
  | succ n ih =>
    have hs : (n + 1) * e = n * e + e := Nat.succ_mul n e
    simp only [assemble, BitVec.getLsbD_or, ih, BitVec.getLsbD_shiftLeft, BitVec.getLsbD_setWidth]
    by_cases hw : i < w
    · by_cases h1 : i < n * e
      · have h3 : i < (n + 1) * e := by omega
        simp [hw, h1, h3]
      · by_cases h2 : i < (n + 1) * e
        · have hd : i / e = n := Nat.div_eq_of_lt_le (by omega) (by omega)
          have hm : i % e = i - n * e := by rw [Nat.mod_eq_sub_mul_div, hd, Nat.mul_comm]
          have h4 : i - n * e < w := by omega
          simp [hw, h1, h2, hd, hm, h4]
        · have : e ≤ i - n * e := by omega
          simp [hw, h1, h2, BitVec.getLsbD_of_ge _ _ this]
    · simp [hw]

/-- Element `j` of an assembled value. -/
theorem assemble_element (w e : Nat) (f : Nat → BitVec e) (n j : Nat) (hj : j < n) (hn : n * e ≤ w) :
    (assemble w e f n).extractLsb' (j * e) e = f j := by
  ext b hb
  have he : 0 < e := by omega
  have hs : (j + 1) * e = j * e + e := Nat.succ_mul j e
  have hle : (j + 1) * e ≤ n * e := Nat.mul_le_mul_right e hj
  have hd : (j * e + b) / e = j := Nat.div_eq_of_lt_le (by omega) (by omega)
  have hm : (j * e + b) % e = b := by rw [Nat.add_comm, Nat.add_mul_mod_self_right, Nat.mod_eq_of_lt hb]
  have h1 : j * e + b < n * e := by omega
  have h2 : j * e + b < w := by omega
  rw [BitVec.getElem_extractLsb', assemble_getLsbD w e f n _ he, hd, hm, BitVec.getLsbD_eq_getElem hb]
  simp [h1, h2]

/-- Bits above the elements are 0. -/
theorem assemble_above (w e : Nat) (f : Nat → BitVec e) (n b : Nat) (he : 0 < e) (hb : n * e ≤ b) :
    (assemble w e f n).getLsbD b = false := by
  have : ¬ b < n * e := by omega
  simp [assemble_getLsbD w e f n b he, this]

/-- Two assembled values with the same elements are the same. -/
theorem assemble_congr (w e : Nat) {f g : Nat → BitVec e} (n : Nat) (h : ∀ j < n, f j = g j) :
    assemble w e f n = assemble w e g n := by
  induction n with
  | zero => rfl
  | succ n ih => rw [assemble, assemble, ih (fun j hj => h j (by omega)), h n (by omega)]

/-! ## Enabling -/

/-- Outside the refused and #UD modes lies only 64-bit mode. -/
theorem Mode.rule_admitted (m : Mode) : m.rule = .admitted ↔ m = .bits64 := by cases m <;> simp [Mode.rule]

theorem State.hasFeatures_iff (s : State) (needs : List Feature) :
    s.hasFeatures needs = true ↔ ∀ f ∈ needs, hasFeature s.cfg f = true := by simp [State.hasFeatures]

theorem State.vectorEnabled_iff (s : State) (e : Scheme) :
    s.vectorEnabled e = true ↔ s.osxsave = true ∧ s.xcr0Avx = true ∧ (e = .evex → s.xcr0Avx512 = true) := by
  cases e <;> simp [State.vectorEnabled, and_assoc]

/-- A form passes the enabling check exactly in the states `Ready` describes. -/
theorem checkEnabled_ok_iff (e : Scheme) (needs : List Feature) (s : State) :
    checkEnabled e needs s = .ok () ↔ Ready e needs s := by
  unfold checkEnabled Ready
  rw [← s.hasFeatures_iff needs]
  have hv := s.vectorEnabled_iff e
  cases hm : s.mode <;> simp only [Mode.rule, raise, refuse, reduceCtorEq, false_and, true_and]
  cases h1 : s.vectorEnabled e <;> cases h2 : s.hasFeatures needs <;> cases h3 : s.ts <;> simp_all

/-- In 64-bit mode a missing feature flag or disabled vector state is #UD, whatever CR0.TS holds. -/
theorem checkEnabled_ud (e : Scheme) (needs : List Feature) (s : State) (hm : s.mode = .bits64)
    (h : (s.vectorEnabled e && s.hasFeatures needs) = false) : checkEnabled e needs s = raise .ud := by
  simp [checkEnabled, hm, Mode.rule, h]

/-! ## Memory reads -/

theorem State.allCanonical_iff (s : State) (la : Word64) (n : Nat) :
    s.allCanonical la n = true ↔ ∀ k < n, canonical s.cfg.vaBits (byteAddress la k) = true := by
  simp [State.allCanonical]

theorem State.firstPageFault_none_iff (s : State) (acc : Access) (la : Word64) (n : Nat) :
    s.firstPageFault acc la n = none ↔ ∀ k < n, ∃ pa dev, s.translate acc (byteAddress la k) = .mapped pa dev := by
  simp only [State.firstPageFault, List.findSome?_eq_none_iff, List.mem_range]
  refine forall₂_congr fun k _ => ?_
  cases s.translate acc (byteAddress la k) <;> simp

/-- The page fault of the first byte that is not mapped, the bytes before it being mapped. -/
theorem State.firstPageFault_first (s : State) (acc : Access) (la : Word64) (n k : Nat) (code : BitVec 32) (hk : k < n)
    (hj : ∀ j < k, ∃ pa dev, s.translate acc (byteAddress la j) = .mapped pa dev)
    (h : s.translate acc (byteAddress la k) = .pageFault code) :
    s.firstPageFault acc la n = some (.pf (byteAddress la k) code) := by
  unfold State.firstPageFault
  obtain ⟨m, rfl⟩ : ∃ m, n = k + 1 + m := ⟨n - (k + 1), by omega⟩
  rw [List.range_add, List.range_succ, List.findSome?_append, List.findSome?_append,
    (List.findSome?_eq_none_iff (l := List.range k)).2]
  · simp [h]
  · intro x hx
    obtain ⟨pa, dev, e⟩ := hj x (by simpa using hx)
    simp only [e]

/-- A readable operand is read, whatever else the state holds. -/
theorem State.memRead_of_readable (s : State) (w : Nat) (seg : Segment) (la : Word64) (h : Readable (w / 8) la s) :
    s.memRead w seg la = .ok (s.valueAt w la) := by
  obtain ⟨hb, ha⟩ := h
  have h1 : s.allCanonical la (w / 8) = true := (s.allCanonical_iff la _).2 fun k hk => (hb k hk).1
  have h2 : s.firstPageFault .read la (w / 8) = none :=
    (s.firstPageFault_none_iff .read la _).2 fun k hk => let ⟨pa, hp⟩ := (hb k hk).2; ⟨pa, false, hp⟩
  have h3 : s.touchesDevice .read la (w / 8) = false := by
    simp only [State.touchesDevice, List.any_eq_false, List.mem_range]
    intro k hk
    obtain ⟨pa, hp⟩ := (hb k hk).2
    simp [hp]
  have h4 : (s.acEnabled && la.toNat % (w / 8) != 0) = false := by
    cases hac : s.acEnabled
    · rfl
    · simp [ha hac]
  simp [State.memRead, h1, h2, h3, h4]

/-- A memory read that answers a value answers the bytes, and only a readable operand is read. -/
theorem State.memRead_ok (s : State) (w : Nat) (seg : Segment) (la : Word64) (v : BitVec w)
    (h : s.memRead w seg la = .ok v) : v = s.valueAt w la ∧ Readable (w / 8) la s := by
  unfold State.memRead at h
  split at h
  · simp [raise] at h
  · rename_i hc
    split at h
    · simp [raise] at h
    · rename_i hp
      split at h
      · split at h <;> simp [raise, refuse] at h
      · rename_i ha
        split at h
        · simp [refuse] at h
        · rename_i hd
          simp only [Except.ok.injEq] at h
          refine ⟨h.symm, ?_, ?_⟩
          · intro k hk
            refine ⟨(s.allCanonical_iff la _).1 (by simpa using hc) k hk, ?_⟩
            obtain ⟨pa, dev, ht⟩ := (s.firstPageFault_none_iff .read la _).1 hp k hk
            refine ⟨pa, ?_⟩
            simp only [State.touchesDevice, Bool.not_eq_true, List.any_eq_false, List.mem_range] at hd
            have := hd k hk
            simp only [ht] at this
            rw [ht]
            simpa using this
          · intro hac
            simpa [hac] using ha

/-- Byte `k` of a value read from memory is the byte at the `k`-th address: little-endian. -/
theorem State.valueAt_byte (s : State) (w : Nat) (la : Word64) (k : Nat) (hk : k < w / 8) :
    (s.valueAt w la).extractLsb' (8 * k) 8 = s.byteAt .read (byteAddress la k) := by
  rw [Nat.mul_comm]
  exact assemble_element w 8 _ (w / 8) k hk (Nat.div_mul_le_self w 8)

/-- The source value of a readable operand. -/
theorem State.readSource_of_readable (s : State) (w scale : Nat) (i : Instr) (ps : List LegacyPrefix) (src : Source)
    (h : SourceReadable (w / 8) scale i ps src s) :
    ∃ v, s.readSource w ps (nextPc s i) scale src = .ok v ∧ IsSource w scale i ps src s v := by
  cases src with
  | reg r =>
    refine ⟨_, rfl, fun b hb => ?_⟩
    simp [hb]
  | mem m => exact ⟨_, s.memRead_of_readable w _ _ h, fun k hk => s.valueAt_byte w _ k hk⟩

/-! ## The one operation behind every form -/

/-- What `finish` answers as a next state. -/
@[simp] theorem finish_next_iff (r : Except Stop State) (t : State) : finish r = .next t ↔ r = .ok t := by
  cases r with
  | ok s => simp [finish]
  | error e => cases e <;> simp [finish, Stop.outcome]

/-- A form answers a next state exactly when it is enabled and its source is read, and then it is retired. -/
theorem broadcastForm_next_iff (e : Scheme) (needs : List Feature) (w scale : Nat) (ps : List LegacyPrefix) (d : BitVec 5)
    (src : Source) (len : Nat) (value : BitVec w → VReg) (s t : State) :
    broadcastForm e needs w scale ps d src len value s = .next t ↔
      checkEnabled e needs s = .ok () ∧
        ∃ v, s.readSource w ps (s.pc + BitVec.ofNat 64 len) scale src = .ok v ∧ t = retire s d (value v) len := by
  simp only [broadcastForm, finish_next_iff]
  cases checkEnabled e needs s with
  | error stop => simp
  | ok u =>
    cases s.readSource w ps (s.pc + BitVec.ofNat 64 len) scale src with
    | error stop => simp
    | ok v => simp [eq_comm]

/-- A form that fails the enabling check stops with its reason, before the source is looked at. -/
theorem broadcastForm_disabled (e : Scheme) (needs : List Feature) (w scale : Nat) (ps : List LegacyPrefix) (d : BitVec 5)
    (src : Source) (len : Nat) (value : BitVec w → VReg) (s : State) (stop : Stop)
    (h : checkEnabled e needs s = .error stop) :
    broadcastForm e needs w scale ps d src len value s = stop.outcome := by
  simp [broadcastForm, h, finish]

/-- An enabled form whose source cannot be read stops with the read's reason. -/
theorem broadcastForm_unreadable (e : Scheme) (needs : List Feature) (w scale : Nat) (ps : List LegacyPrefix)
    (d : BitVec 5) (src : Source) (len : Nat) (value : BitVec w → VReg) (s : State) (stop : Stop)
    (h : checkEnabled e needs s = .ok ()) (hr : s.readSource w ps (s.pc + BitVec.ofNat 64 len) scale src = .error stop) :
    broadcastForm e needs w scale ps d src len value s = stop.outcome := by
  simp [broadcastForm, h, hr, finish]

/-- Retiring changes the destination and `pc` only. -/
theorem retire_frame (s : State) (d : BitVec 5) (value : VReg) (len : Nat) : Frame d s (retire s d value len) := by
  refine ⟨fun i hi => retire_readV_other s value len hi, ?_⟩
  simp

/-! ## The canonical check -/

/-- The canonical check in the words of 20_memory.md R47: bits 63 down to `VA_BITS`-1 are all equal. -/
theorem canonical_iff_bits (vaBits : Nat) (a : Word64) (h1 : 1 ≤ vaBits) (h2 : vaBits ≤ 64) :
    canonical vaBits a = true ↔ ∀ i, vaBits - 1 ≤ i → i < 64 → a.getLsbD i = a.getLsbD 63 := by
  have key : ∀ n, n ≤ 64 → 1 ≤ n → ((∀ i, n - 1 ≤ i → i < 64 → a.getLsbD i = a.getLsbD 63) ↔
      (∀ j, j < 65 - n → a.getLsbD (n - 1 + j) = a.getLsbD 63)) := by
    intro n _ _
    constructor
    · intro h j hj; exact h _ (by omega) (by omega)
    · intro h i hi hlt
      have := h (i - (n - 1)) (by omega)
      rwa [show n - 1 + (i - (n - 1)) = i by omega] at this
  rw [key vaBits h2 h1]
  have hlt : a.toNat >>> (vaBits - 1) < 2 ^ (65 - vaBits) := by
    rw [Nat.shiftRight_eq_div_pow]
    apply Nat.div_lt_of_lt_mul
    rw [← Nat.pow_add, show vaBits - 1 + (65 - vaBits) = 64 by omega]
    exact a.isLt
  have hbit : ∀ j, (a.toNat >>> (vaBits - 1)).testBit j = a.getLsbD (vaBits - 1 + j) := by
    intro j; simp [Nat.testBit_shiftRight, BitVec.getLsbD]
  have htop : a.getLsbD 63 = a.getLsbD (vaBits - 1 + (64 - vaBits)) := by rw [show vaBits - 1 + (64 - vaBits) = 63 by omega]
  simp only [canonical, Bool.or_eq_true, beq_iff_eq]
  constructor
  · rintro (h | h) j hj
    · rw [htop, ← hbit, ← hbit, h]; simp
    · have h' : a.toNat >>> (vaBits - 1) = 2 ^ (65 - vaBits) - 1 := Nat.eq_sub_of_add_eq h
      rw [htop, ← hbit, ← hbit, h', Nat.testBit_two_pow_sub_one, Nat.testBit_two_pow_sub_one]
      simp [hj, show 64 - vaBits < 65 - vaBits by omega]
  · intro h
    cases hb : a.getLsbD 63
    · left
      apply Nat.eq_of_testBit_eq
      intro j
      by_cases hj : j < 65 - vaBits
      · rw [hbit, h j hj, hb]; simp
      · rw [Nat.testBit_lt_two_pow (Nat.lt_of_lt_of_le hlt (Nat.pow_le_pow_right (by decide) (by omega)))]; simp
    · right
      have : a.toNat >>> (vaBits - 1) = 2 ^ (65 - vaBits) - 1 := by
        apply Nat.eq_of_testBit_eq
        intro j
        rw [Nat.testBit_two_pow_sub_one]
        by_cases hj : j < 65 - vaBits
        · rw [hbit, h j hj, hb]; simp [hj]
        · rw [Nat.testBit_lt_two_pow (Nat.lt_of_lt_of_le hlt (Nat.pow_le_pow_right (by decide) (by omega)))]; simp [hj]
      have := Nat.one_le_two_pow (n := 65 - vaBits)
      omega

end Sys2Proof.Machine
end

