-- ==== Sys2Proof/Laws/Exec.lean ====
section
/-! SUPPORT. Every form is one line over the shared operation, with the facts of the opcode table as its arguments; and what a step does with the bytes at `pc`. -/

namespace Sys2Proof.Machine

open Sys2Proof.Safety

/-- Every instruction's meaning is the shared operation at its row's scheme, flags, operand size, scale, operands and length; only the destination's value differs from row to row. -/
theorem exec_form (i : Instr) (s : State) : ∃ value : BitVec (8 * operandBytes i) → VReg,
    exec i s = broadcastForm (scheme i) (needs i) (8 * operandBytes i) (dispScale i) (legacyPrefixes i) (destination i)
      (sourceOf i) i.length value s := by
  cases i <;> exact ⟨_, rfl⟩

/-- A VEX row is the shared operation with a destination value that depends on the source value alone. -/
theorem exec_vex (i : Instr) (h : scheme i = .vex) : ∃ value : BitVec (8 * operandBytes i) → VReg, ∀ s,
    exec i s = broadcastForm .vex (needs i) (8 * operandBytes i) 1 (legacyPrefixes i) (destination i) (sourceOf i)
      i.length value s := by
  cases i <;> first | exact ⟨_, fun _ => rfl⟩ | cases h

/-- An EVEX row is `evexForm` at its element size, tuple size and vector length. -/
theorem exec_evex (i : Instr) (h : scheme i = .evex) : ∃ esize t, 0 < esize ∧ esize ∣ vectorLength i ∧ vectorLength i ≤ 512 ∧
    t * esize = 8 * operandBytes i ∧ maskedElements i = vectorLength i / esize ∧ ∀ s, exec i s =
      evexForm (needs i) esize t (vectorLength i) (legacyPrefixes i) (destination i) (maskingOf i) (sourceOf i) i.length s := by
  cases i
  case evexSdYmm => exact ⟨64, 1, by decide, by simp [vectorLength], by simp [vectorLength], rfl, by simp [maskedElements, vectorLength], fun _ => rfl⟩
  case evexSdZmm => exact ⟨64, 1, by decide, by simp [vectorLength], by simp [vectorLength], rfl, by simp [maskedElements, vectorLength], fun _ => rfl⟩
  case evexF32x2Ymm => exact ⟨32, 2, by decide, by simp [vectorLength], by simp [vectorLength], rfl, by simp [maskedElements, vectorLength], fun _ => rfl⟩
  case evexF32x2Zmm => exact ⟨32, 2, by decide, by simp [vectorLength], by simp [vectorLength], rfl, by simp [maskedElements, vectorLength], fun _ => rfl⟩
  case evexSsXmm => exact ⟨32, 1, by decide, by simp [vectorLength], by simp [vectorLength], rfl, by simp [maskedElements, vectorLength], fun _ => rfl⟩
  case evexSsYmm => exact ⟨32, 1, by decide, by simp [vectorLength], by simp [vectorLength], rfl, by simp [maskedElements, vectorLength], fun _ => rfl⟩
  case evexSsZmm => exact ⟨32, 1, by decide, by simp [vectorLength], by simp [vectorLength], rfl, by simp [maskedElements, vectorLength], fun _ => rfl⟩
  case evexF32x4Ymm => exact ⟨32, 4, by decide, by simp [vectorLength], by simp [vectorLength], rfl, by simp [maskedElements, vectorLength], fun _ => rfl⟩
  case evexF32x4Zmm => exact ⟨32, 4, by decide, by simp [vectorLength], by simp [vectorLength], rfl, by simp [maskedElements, vectorLength], fun _ => rfl⟩
  case evexF64x2Ymm => exact ⟨64, 2, by decide, by simp [vectorLength], by simp [vectorLength], rfl, by simp [maskedElements, vectorLength], fun _ => rfl⟩
  case evexF64x2Zmm => exact ⟨64, 2, by decide, by simp [vectorLength], by simp [vectorLength], rfl, by simp [maskedElements, vectorLength], fun _ => rfl⟩
  case evexF32x8Zmm => exact ⟨32, 8, by decide, by simp [vectorLength], by simp [vectorLength], rfl, by simp [maskedElements, vectorLength], fun _ => rfl⟩
  case evexF64x4Zmm => exact ⟨64, 4, by decide, by simp [vectorLength], by simp [vectorLength], rfl, by simp [maskedElements, vectorLength], fun _ => rfl⟩
  all_goals cases h

/-- An instruction that answers a next state was enabled, read its source, and retired. -/
theorem exec_next (i : Instr) (s t : State) (h : exec i s = .next t) :
    Ready (scheme i) (needs i) s ∧ ∃ value, t = retire s (destination i) value i.length := by
  obtain ⟨value, hv⟩ := exec_form i s
  rw [hv, broadcastForm_next_iff] at h
  obtain ⟨hc, v, -, ht⟩ := h
  exact ⟨(checkEnabled_ok_iff _ _ s).1 hc, _, ht⟩

/-- An enabled instruction whose memory operand cannot be read stops with the read's reason. -/
theorem exec_unreadable (i : Instr) (s : State) (seg : Segment) (la : Word64) (stop : Stop)
    (hr : Ready (scheme i) (needs i) s) (ho : operandAddress i s = some (seg, la))
    (h : s.memRead (8 * operandBytes i) seg la = .error stop) : exec i s = stop.outcome := by
  obtain ⟨value, hv⟩ := exec_form i s
  rw [hv]
  refine broadcastForm_unreadable _ _ _ _ _ _ _ _ _ _ _ ((checkEnabled_ok_iff ..).2 hr) ?_
  unfold operandAddress at ho
  cases hs : sourceOf i with
  | reg r => simp [hs] at ho
  | mem m =>
    simp only [hs, Option.some.injEq, Prod.mk.injEq] at ho
    simp only [State.readSource]
    rw [← h, ← ho.1, ← ho.2]
    rfl

/-- A step that answers a next state ran some instruction. -/
theorem step_next (s t : State) (h : step s = .next t) : ∃ i, s.fetchInstr = .ok i ∧ exec i s = .next t := by
  unfold step at h
  split at h
  · rename_i i hi
    exact ⟨i, hi, h⟩
  · rename_i stop _
    cases stop <;> simp [Stop.outcome] at h

/-- What a step does in 64-bit mode with what the bytes at `pc` decode to. -/
theorem step_of_decode (s : State) (hm : s.mode = .bits64) :
    step s = match decode (codeBytes s) with
      | .instr i _ => exec i s
      | .undefinedOpcode => .fault .ud
      | .notThisFamily => .refused .notThisFamily
      | .incomplete =>
        match (s.fetchWindow maxLength s.pc).2 with
        | some stop => stop.outcome
        | none => .fault .gp := by
  unfold step State.fetchInstr decode codeBytes
  simp only [hm, Mode.rule, beq_self_eq_true]
  cases decodeIn true (s.fetchWindow maxLength s.pc).1 <;> simp only [raise, refuse, Stop.outcome]
  cases (s.fetchWindow maxLength s.pc).2 <;> rfl

/-- A window whose bytes are all there has no reason to stop. -/
theorem State.fetchWindow_full (s : State) : ∀ (n : Nat) (la : Word64), (s.fetchWindow n la).1.length = n →
    (s.fetchWindow n la).2 = none
  | 0, _, _ => rfl
  | n + 1, la, h => by
    unfold State.fetchWindow at h ⊢
    cases hb : s.fetchByte la with
    | error stop => simp [hb] at h
    | ok b =>
      simp only [hb, List.length_cons, Nat.add_right_cancel_iff] at h ⊢
      exact s.fetchWindow_full n _ h

/-- A window that ends early ends at a byte that cannot be fetched, and says why. -/
theorem State.fetchWindow_short (s : State) : ∀ (n : Nat) (la : Word64), (s.fetchWindow n la).1.length < n →
    ∃ stop, (s.fetchWindow n la).2 = some stop ∧
      s.fetchByte (la + BitVec.ofNat 64 (s.fetchWindow n la).1.length) = .error stop
  | 0, _, h => by simp at h
  | n + 1, la, h => by
    unfold State.fetchWindow at h ⊢
    cases hb : s.fetchByte la with
    | error stop => exact ⟨stop, rfl, by simpa using hb⟩
    | ok b =>
      simp only [hb, List.length_cons, Nat.add_lt_add_iff_right] at h ⊢
      obtain ⟨stop, h2, h1⟩ := s.fetchWindow_short n _ h
      refine ⟨stop, h2, ?_⟩
      rw [← h1]
      congr 1
      rw [BitVec.add_assoc]
      congr 1
      rw [Nat.add_comm, BitVec.ofNat_add]

/-- Fetching sees only the parameters, the privilege level and memory. -/
theorem State.fetchWindow_congr {s t : State} (hc : t.cfg = s.cfg) (hp : t.cpl = s.cpl) (hm : t.mem = s.mem) :
    ∀ (n : Nat) (la : Word64), t.fetchWindow n la = s.fetchWindow n la
  | 0, _ => rfl
  | n + 1, la => by
    have hb : t.fetchByte la = s.fetchByte la := by simp [State.fetchByte, State.translate, hc, hp, hm]
    simp only [State.fetchWindow, hb, State.fetchWindow_congr hc hp hm n]

end Sys2Proof.Machine
end

