-- ==== Sys2Proof/Laws/Memory.lean ====
section
/-! SUPPORT. Memory as data: a read after a write, and the canonical form under every memory operation. -/

namespace Sys2Proof.Machine

@[simp] theorem Memory.read_nil (a : Nat) : Memory.read [] a = unlisted := rfl

/-- An address below every listed one is unlisted. -/
theorem Memory.read_below {m : Memory} : ∀ {lo a : Nat}, Memory.wfFrom lo m = true → a < lo → m.read a = unlisted := by
  induction m with
  | nil => intros; rfl
  | cons c m ih =>
    obtain ⟨k, b⟩ := c
    intro lo a h hlt
    simp only [Memory.wfFrom, Bool.and_eq_true, decide_eq_true_eq] at h
    obtain ⟨⟨⟨hlo, -⟩, -⟩, hm⟩ := h
    have hk : k ≠ a := by omega
    simp only [Memory.read, hk, if_false]
    exact ih hm (by omega)

/-- A canonical tail may start lower. -/
theorem Memory.wfFrom_le {m : Memory} {lo lo' : Nat} (h : Memory.wfFrom lo m = true) (hle : lo' ≤ lo) :
    Memory.wfFrom lo' m = true := by
  cases m with
  | nil => rfl
  | cons c m =>
    obtain ⟨k, b⟩ := c
    simp only [Memory.wfFrom, Bool.and_eq_true, decide_eq_true_eq] at h ⊢
    exact ⟨⟨⟨by omega, h.1.1.2⟩, h.1.2⟩, h.2⟩

/-- A byte reads back as it was written. -/
theorem Memory.read_write_same (m : Memory) (a : Nat) (b : Byte) {lo : Nat} (h : Memory.wfFrom lo m = true) :
    (m.write a b).read a = b := by
  induction m generalizing lo with
  | nil => by_cases hb : b = unlisted <;> simp [Memory.write, Memory.read, hb]
  | cons c m ih =>
    obtain ⟨k, c⟩ := c
    have hw := h
    simp only [Memory.wfFrom, Bool.and_eq_true, decide_eq_true_eq] at h
    simp only [Memory.write]
    split
    · split
      · rename_i hlt hb
        rw [hb]
        exact Memory.read_below (Memory.wfFrom_le (lo' := k) (by simpa [Memory.wfFrom] using ⟨⟨h.1.1.2, by simpa using h.1.2⟩, h.2⟩) (Nat.le_refl k)) hlt
      · simp [Memory.read]
    · split
      · rename_i h1 h2
        split
        · rename_i hb
          rw [hb]
          exact Memory.read_below h.2 (by omega)
        · simp [Memory.read]
      · rename_i h1 h2
        have : k ≠ a := fun e => h2 e.symm
        simp only [Memory.read, this, if_false]
        exact ih h.2

/-- Writing one byte leaves every other byte alone. -/
theorem Memory.read_write_other (m : Memory) {a a' : Nat} (b : Byte) (hne : a' ≠ a) : (m.write a b).read a' = m.read a' := by
  induction m with
  | nil => by_cases hb : b = unlisted <;> simp [Memory.write, Memory.read, hb, Ne.symm hne]
  | cons c m ih =>
    obtain ⟨k, c⟩ := c
    simp only [Memory.write]
    split
    · split
      · rfl
      · simp [Memory.read, Ne.symm hne]
    · split
      · rename_i _ h2
        subst h2
        split <;> simp [Memory.read, Ne.symm hne]
      · simp only [Memory.read, ih]

/-- A write keeps the canonical form from any lower bound. -/
theorem Memory.wfFrom_write (m : Memory) {lo a : Nat} (b : Byte) (h : Memory.wfFrom lo m = true) (hlo : lo ≤ a)
    (ha : a < 2 ^ 64) : Memory.wfFrom lo (m.write a b) = true := by
  induction m generalizing lo with
  | nil =>
    by_cases hb : b = unlisted
    · simp [Memory.write, hb, Memory.wfFrom]
    · simpa [Memory.write, hb, Memory.wfFrom, hlo] using ha
  | cons c m ih =>
    obtain ⟨k, c⟩ := c
    have hw := h
    simp only [Memory.wfFrom, Bool.and_eq_true, decide_eq_true_eq] at h
    simp only [Memory.write]
    split
    · split
      · exact hw
      · rename_i hlt hb
        simp only [Memory.wfFrom, Bool.and_eq_true, decide_eq_true_eq]
        exact ⟨⟨⟨hlo, ha⟩, by simpa using hb⟩, ⟨⟨by omega, h.1.1.2⟩, h.1.2⟩, h.2⟩
    · split
      · split
        · exact Memory.wfFrom_le h.2 (by omega)
        · rename_i h1 h2 hb
          simp only [Memory.wfFrom, Bool.and_eq_true, decide_eq_true_eq]
          exact ⟨⟨⟨hlo, ha⟩, by simpa using hb⟩, by rw [h2]; exact h.2⟩
      · simp only [Memory.wfFrom, Bool.and_eq_true, decide_eq_true_eq]
        exact ⟨h.1, ih h.2 (by omega)⟩

/-- Writing a byte keeps the canonical form. -/
theorem Memory.wf_write (m : Memory) {a : Nat} (b : Byte) (h : m.wf = true) (ha : a < 2 ^ 64) : (m.write a b).wf = true :=
  Memory.wfFrom_write m b h (Nat.zero_le a) ha

/-- Reset memory is canonical: it lists nothing. -/
theorem State.reset_mem_wf : State.reset.mem.wf = true := rfl

/-- A code address lies in the 64-bit space. -/
theorem State.codeAddress_lt (s : State) (la : Word64) : s.codeAddress la < 2 ^ 64 := by
  unfold State.codeAddress
  split <;> exact BitVec.isLt _

/-- Placing code keeps the canonical form. -/
theorem State.placeCode_wf (s : State) (bs : List Byte) (la : Word64) (m : Memory) (h : m.wf = true) :
    (s.placeCode la bs m).wf = true := by
  induction bs generalizing la m with
  | nil => exact h
  | cons b bs ih => exact ih _ _ (Memory.wf_write m b h (s.codeAddress_lt la))

/-- Byte `k` from the next address is byte `k + 1`. -/
theorem byteAddress_succ (la : Word64) (k : Nat) : byteAddress (la + 1#64) k = byteAddress la (k + 1) := by
  simp only [byteAddress, BitVec.ofNat_add]
  ac_rfl

/-- Two bytes of one access of less than the whole space lie at different addresses. -/
theorem byteAddress_ne (la : Word64) {k : Nat} (h0 : 0 < k) (h : k < 2 ^ 64) : byteAddress la k ≠ la := by
  intro e
  have e0 : BitVec.ofNat 64 k = 0#64 := by
    have e1 := congrArg (fun a => a - la) e
    simpa [byteAddress, BitVec.add_comm, BitVec.add_sub_cancel] using e1
  have := congrArg BitVec.toNat e0
  simp at this
  omega

/-- Without regions a code byte lies in memory at its linear address. -/
theorem State.codeAddress_identity (s : State) (h : s.cfg.regions = []) (la : Word64) : s.codeAddress la = la.toNat := by
  simp [State.codeAddress, State.translate, translateIn, h]

/-- Placing code changes no byte outside it. -/
theorem State.placeCode_read_other (s : State) (hr : s.cfg.regions = []) (code : List Byte) : ∀ (la : Word64) (m : Memory) (a : Nat),
    (∀ k < code.length, (byteAddress la k).toNat ≠ a) → (s.placeCode la code m).read a = m.read a := by
  induction code with
  | nil => intro _ _ _ _; rfl
  | cons b bs ih =>
    intro la m a h
    rw [State.placeCode, ih, s.codeAddress_identity hr]
    · exact Memory.read_write_other _ _ (by simpa [byteAddress] using (h 0 (by simp)).symm)
    · intro k hk
      rw [byteAddress_succ]
      exact h (k + 1) (by simpa using hk)

/-- Each byte of placed code reads back. -/
theorem State.placeCode_read_same (s : State) (hr : s.cfg.regions = []) (code : List Byte) : ∀ (la : Word64) (m : Memory),
    m.wf = true → code.length ≤ 2 ^ 64 → ∀ k (h : k < code.length),
      (s.placeCode la code m).read (byteAddress la k).toNat = code[k] := by
  induction code with
  | nil => intro _ _ _ _ k h; simp at h
  | cons b bs ih =>
    intro la m hm hl k h
    rw [List.length_cons] at hl
    rw [State.placeCode, s.codeAddress_identity hr]
    cases k with
    | zero =>
      rw [s.placeCode_read_other hr]
      · simpa [byteAddress] using Memory.read_write_same m _ b (lo := 0) hm
      · intro j hj e
        rw [byteAddress_succ] at e
        exact byteAddress_ne la (Nat.succ_pos j) (by omega) ((BitVec.eq_of_toNat_eq e).trans (by simp [byteAddress]))
    | succ k =>
      rw [← byteAddress_succ]
      simpa using ih (la + 1#64) _ (Memory.wf_write m b hm la.isLt) (by omega) k (by simpa using h)

/-- The loader keeps the canonical form. -/
theorem State.withFetchWord_wf (s : State) (nbits w : Nat) (h : s.mem.wf = true) : (s.withFetchWord nbits w).mem.wf = true :=
  s.placeCode_wf _ _ _ h

end Sys2Proof.Machine
end

