-- ==== Sys2Proof/Laws/PerInstr.lean ====
section
/-! SUPPORT. A statement about every instruction as syntax, one lemma for each constructor: the encoding has the length of 30_encoding.md R74. -/

namespace Sys2Proof.Laws.EncodeLength

/-- The bytes of the encoding are as many as the instruction's length says. -/
def Statement (i : Instr) : Prop := (encode i).length = i.length

theorem vexSsXmmMem (ps : List LegacyPrefix) (d : BitVec 4) (m : MemOperand) : Statement (.vexSsXmmMem ps d m) := by
  simp [Statement, encode, Instr.length]

theorem vexSsYmmMem (ps : List LegacyPrefix) (d : BitVec 4) (m : MemOperand) : Statement (.vexSsYmmMem ps d m) := by
  simp [Statement, encode, Instr.length]

theorem vexSdYmmMem (ps : List LegacyPrefix) (d : BitVec 4) (m : MemOperand) : Statement (.vexSdYmmMem ps d m) := by
  simp [Statement, encode, Instr.length]

theorem vexF128YmmMem (ps : List LegacyPrefix) (d : BitVec 4) (m : MemOperand) : Statement (.vexF128YmmMem ps d m) := by
  simp [Statement, encode, Instr.length]

theorem vexSsXmmReg (ps : List LegacyPrefix) (d s : BitVec 4) : Statement (.vexSsXmmReg ps d s) := by
  simp [Statement, encode, Instr.length, vexRegFields]

theorem vexSsYmmReg (ps : List LegacyPrefix) (d s : BitVec 4) : Statement (.vexSsYmmReg ps d s) := by
  simp [Statement, encode, Instr.length, vexRegFields]

theorem vexSdYmmReg (ps : List LegacyPrefix) (d s : BitVec 4) : Statement (.vexSdYmmReg ps d s) := by
  simp [Statement, encode, Instr.length, vexRegFields]

theorem evexSdYmm (ps : List LegacyPrefix) (d : BitVec 5) (k : Masking) (src : Source) : Statement (.evexSdYmm ps d k src) := by
  simp [Statement, encode, Instr.length]

theorem evexSdZmm (ps : List LegacyPrefix) (d : BitVec 5) (k : Masking) (src : Source) : Statement (.evexSdZmm ps d k src) := by
  simp [Statement, encode, Instr.length]

theorem evexF32x2Ymm (ps : List LegacyPrefix) (d : BitVec 5) (k : Masking) (src : Source) : Statement (.evexF32x2Ymm ps d k src) := by
  simp [Statement, encode, Instr.length]

theorem evexF32x2Zmm (ps : List LegacyPrefix) (d : BitVec 5) (k : Masking) (src : Source) : Statement (.evexF32x2Zmm ps d k src) := by
  simp [Statement, encode, Instr.length]

theorem evexSsXmm (ps : List LegacyPrefix) (d : BitVec 5) (k : Masking) (src : Source) : Statement (.evexSsXmm ps d k src) := by
  simp [Statement, encode, Instr.length]

theorem evexSsYmm (ps : List LegacyPrefix) (d : BitVec 5) (k : Masking) (src : Source) : Statement (.evexSsYmm ps d k src) := by
  simp [Statement, encode, Instr.length]

theorem evexSsZmm (ps : List LegacyPrefix) (d : BitVec 5) (k : Masking) (src : Source) : Statement (.evexSsZmm ps d k src) := by
  simp [Statement, encode, Instr.length]

theorem evexF32x4Ymm (ps : List LegacyPrefix) (d : BitVec 5) (k : Masking) (m : MemOperand) : Statement (.evexF32x4Ymm ps d k m) := by
  simp [Statement, encode, Instr.length]

theorem evexF32x4Zmm (ps : List LegacyPrefix) (d : BitVec 5) (k : Masking) (m : MemOperand) : Statement (.evexF32x4Zmm ps d k m) := by
  simp [Statement, encode, Instr.length]

theorem evexF64x2Ymm (ps : List LegacyPrefix) (d : BitVec 5) (k : Masking) (m : MemOperand) : Statement (.evexF64x2Ymm ps d k m) := by
  simp [Statement, encode, Instr.length]

theorem evexF64x2Zmm (ps : List LegacyPrefix) (d : BitVec 5) (k : Masking) (m : MemOperand) : Statement (.evexF64x2Zmm ps d k m) := by
  simp [Statement, encode, Instr.length]

theorem evexF32x8Zmm (ps : List LegacyPrefix) (d : BitVec 5) (k : Masking) (m : MemOperand) : Statement (.evexF32x8Zmm ps d k m) := by
  simp [Statement, encode, Instr.length]

theorem evexF64x4Zmm (ps : List LegacyPrefix) (d : BitVec 5) (k : Masking) (m : MemOperand) : Statement (.evexF64x4Zmm ps d k m) := by
  simp [Statement, encode, Instr.length]

end Sys2Proof.Laws.EncodeLength
end

