-- ==== Sys2Proof/Laws/Run.lean ====
section
/-! SUPPORT. What the launch of a program leaves, and a run taken apart at its last step. -/

namespace Sys2Proof.Machine

@[simp] theorem State.launch_pc (s : State) (start : Word64) (code : List Byte) : (s.launch start code).pc = start := rfl

@[simp] theorem State.launch_mem (s : State) (start : Word64) (code : List Byte) :
    (s.launch start code).mem = s.placeCode start code s.mem := rfl

@[simp] theorem State.launch_cfg (s : State) (start : Word64) (code : List Byte) : (s.launch start code).cfg = s.cfg := rfl

@[simp] theorem State.launch_cpl (s : State) (start : Word64) (code : List Byte) : (s.launch start code).cpl = s.cpl := rfl

@[simp] theorem State.launch_mode (s : State) (start : Word64) (code : List Byte) : (s.launch start code).mode = s.mode := rfl

/-- A launch keeps the canonical form of memory. -/
theorem State.launch_wf (s : State) (start : Word64) (code : List Byte) (h : s.mem.wf = true) :
    (s.launch start code).mem.wf = true := s.placeCode_wf code start s.mem h

/-- A run whose first step completes. -/
theorem run_succ_of_next (k : Nat) {s t : State} (h : step s = .next t) :
    Host.Core.run Sys2Proof.core (k + 1) s = Host.Core.run Sys2Proof.core k t := by
  have h' : Sys2Proof.core.step s = .next t := h
  simp only [Host.Core.run, h']

/-- A run of at least one step that completes, completes its first step. -/
theorem run_succ_first (k : Nat) {s u : State} (h : Host.Core.run Sys2Proof.core (k + 1) s = .next u) :
    ∃ t, step s = .next t ∧ Host.Core.run Sys2Proof.core k t = .next u := by
  cases hs : step s with
  | next t => exact ⟨t, rfl, by rwa [run_succ_of_next k hs] at h⟩
  | fault f =>
    have h' : Sys2Proof.core.step s = .fault f := hs
    simp [Host.Core.run, h'] at h
  | refused r =>
    have h' : Sys2Proof.core.step s = .refused r := hs
    simp [Host.Core.run, h'] at h

/-- A run of no steps is where it starts. -/
theorem run_zero (s u : State) : Host.Core.run Sys2Proof.core 0 s = .next u ↔ u = s :=
  ⟨fun h => by cases h; rfl, fun h => by rw [h]; rfl⟩

/-- A run of `k + 1` steps is a run of `k` steps and one more. -/
theorem run_succ_last (k : Nat) : ∀ s u : State, Host.Core.run Sys2Proof.core (k + 1) s = .next u ↔
    ∃ v, Host.Core.run Sys2Proof.core k s = .next v ∧ step v = .next u := by
  induction k with
  | zero =>
    intro s u
    constructor
    · intro h
      obtain ⟨t, ht, hu⟩ := run_succ_first 0 h
      exact ⟨s, rfl, by rw [ht, (run_zero t u).1 hu]⟩
    · rintro ⟨v, hv, hu⟩
      rw [(run_zero s v).1 hv] at hu
      exact run_succ_of_next 0 hu
  | succ k ih =>
    intro s u
    constructor
    · intro h
      obtain ⟨t, ht, hu⟩ := run_succ_first (k + 1) h
      obtain ⟨v, hv, hs⟩ := (ih t u).1 hu
      exact ⟨v, by rw [run_succ_of_next k ht, hv], hs⟩
    · rintro ⟨v, hv, hu⟩
      obtain ⟨t, ht, hr⟩ := run_succ_first k hv
      rw [run_succ_of_next (k + 1) ht]
      exact (ih t u).2 ⟨v, hr, hu⟩

end Sys2Proof.Machine
end

