-- ==== Sys2Proof/Tests/Slice0.lean ====
section
/-! SUPPORT. Small tests of the model against the words and vectors of the spec (95_test_vectors.md, the examples of 40_vex_forms.md to 42_evex_tuple_broadcast.md), and for every obligation with hypotheses a named state and operands that meet them. -/

namespace Sys2Proof.Tests

-- The kernel evaluates these tests one after another, so that they do not each hold a thread.
set_option Elab.async false

open Sys2Proof.Machine Sys2Proof.Safety

/-! ## Helpers -/

/-- Bytes placed from address `a` on. -/
def place : Nat → List Byte → Memory → Memory
  | _, [], m => m
  | a, b :: bs, m => place (a + 1) bs (m.write a b)

/-- The launch state at pc = 400000H with code there, data at `a`, and two general registers and a mask set. -/
def start (code : List Byte) (a : Nat) (data : List Byte) : State :=
  { State.reset with pc := 0x400000#64, mem := place a data (place 0x400000 code []) }

/-- A general register set. -/
def withX (r : Fin 16) (v : Word64) (s : State) : State := { s with x := s.x.set r v }

/-- An opmask register set. -/
def withK (r : Fin 8) (v : Word64) (s : State) : State := { s with k := s.k.set r v }

/-- The convention of the vectors: dword `j` is DD000000H + j. -/
def oldDwords : VReg := assemble 512 32 (fun j => BitVec.ofNat 32 (0xDD000000 + j)) 16

/-- The convention of the vectors: qword `j` is DDDD000000000000H + j. -/
def oldQwords : VReg := assemble 512 64 (fun j => BitVec.ofNat 64 (0xDDDD000000000000 + j)) 8

/-- The step completes with this destination value and pc advanced by `len`. -/
def completes (s : State) (d : BitVec 5) (value : VReg) (len : Nat) : Bool :=
  match step s with
  | .next t => t.readV d == value && t.pc == s.pc + BitVec.ofNat 64 len
  | .fault _ => false
  | .refused _ => false

/-- The fault of an outcome. -/
def faultOf : Host.Outcome State Fault Refusal → Option Fault
  | .fault f => some f
  | .next _ => none
  | .refused _ => none

/-- The refusal of an outcome. -/
def refusalOf : Host.Outcome State Fault Refusal → Option Refusal
  | .refused r => some r
  | .next _ => none
  | .fault _ => none

/-- The outcome is a next state. -/
def isNext : Host.Outcome State Fault Refusal → Bool
  | .next _ => true
  | .fault _ => false
  | .refused _ => false

theorem fault_of {o : Host.Outcome State Fault Refusal} {f : Fault} (h : faultOf o = some f) : o = .fault f := by
  cases o <;> simp_all [faultOf]

theorem refused_of {o : Host.Outcome State Fault Refusal} {r : Refusal} (h : refusalOf o = some r) : o = .refused r := by
  cases o <;> simp_all [refusalOf]

theorem next_of {o : Host.Outcome State Fault Refusal} (h : isNext o = true) : ∃ t, o = .next t := by
  cases o <;> simp_all [isNext]

/-- A memory read that answers shows the operand readable. -/
theorem readable_of (s : State) (w : Nat) (la : Word64) (h : (s.memRead w .ds la).toBool = true) : Readable (w / 8) la s := by
  cases hr : s.memRead w .ds la with
  | ok v => exact (s.memRead_ok w .ds la v hr).2
  | error e => simp [hr, Except.toBool] at h

/-! ## WellFormed: an ill-formed term for each check, and a well-formed one beside it -/

/-- Base field 100b announces a SIB byte (20_memory.md R46). -/
theorem test_wf_base_four : (Instr.vexSsXmmMem [] 1#4 (.base 4#4 .absent)).wellFormed = false ∧
    (Instr.vexSsXmmMem [] 1#4 (.base 12#4 (.disp8 0#8))).wellFormed = false ∧
    (Instr.vexSsXmmMem [] 1#4 (.sib 0#2 4#4 4#4 .absent)).wellFormed = true := by decide

/-- Base field 101b needs a displacement, without and with a SIB byte (20_memory.md R46). -/
theorem test_wf_base_five : (Instr.vexSsYmmMem [] 1#4 (.base 5#4 .absent)).wellFormed = false ∧
    (Instr.evexF32x4Ymm [] 1#5 ⟨0#3, false⟩ (.sib 0#2 1#4 13#4 .absent)).wellFormed = false ∧
    (Instr.vexSsYmmMem [] 1#4 (.base 5#4 (.disp8 0#8))).wellFormed = true := by decide

/-- z = 1 needs a writemask (30_encoding.md R81). -/
theorem test_wf_zeroing : (Instr.evexSsZmm [] 1#5 ⟨0#3, true⟩ (.reg 2#5)).wellFormed = false ∧
    (Instr.evexSsZmm [] 1#5 ⟨1#3, true⟩ (.reg 2#5)).wellFormed = true := by decide

/-- At most 15 bytes (30_encoding.md R74): ten legacy bytes and a 5-byte form fit, eleven do not. -/
theorem test_wf_length : (Instr.vexSsYmmReg (List.replicate 10 .cs) 1#4 2#4).wellFormed = true ∧
    (Instr.vexSsYmmReg (List.replicate 11 .cs) 1#4 2#4).wellFormed = false := by decide

/-! ## Decoding: one word of the spec for each constructor -/

/-- T1: VBROADCASTSS xmm1, [rax]. -/
theorem test_decode_vexSsXmmMem : decode [0xC4, 0xE2, 0x79, 0x18, 0x08] = .instr (.vexSsXmmMem [] 1#4 (.base 0#4 .absent)) [] := by decide

/-- T10: VBROADCASTSS ymm0, [rip+10H]. -/
theorem test_decode_vexSsYmmMem : decode [0xC4, 0xE2, 0x7D, 0x18, 0x05, 0x10, 0x00, 0x00, 0x00] = .instr (.vexSsYmmMem [] 0#4 (.ripRel 0x10#32)) [] := by decide

/-- T9: VBROADCASTSD ymm12, [r13+r14*4+100H]. -/
theorem test_decode_vexSdYmmMem : decode [0xC4, 0x02, 0x7D, 0x19, 0xA4, 0xB5, 0x00, 0x01, 0x00, 0x00] = .instr (.vexSdYmmMem [] 12#4 (.sib 2#2 14#4 13#4 (.disp32 0x100#32))) [] := by decide

/-- T4: VBROADCASTF128 ymm3, [rdx]. -/
theorem test_decode_vexF128YmmMem : decode [0xC4, 0xE2, 0x7D, 0x1A, 0x1A] = .instr (.vexF128YmmMem [] 3#4 (.base 2#4 .absent)) [] := by decide

/-- T5: VBROADCASTSS xmm1, xmm2. -/
theorem test_decode_vexSsXmmReg : decode [0xC4, 0xE2, 0x79, 0x18, 0xCA] = .instr (.vexSsXmmReg [] 1#4 2#4) [] := by decide

/-- T8: VBROADCASTSS ymm9, xmm9, byte 1 with R and B extended. -/
theorem test_decode_vexSsYmmReg : decode [0xC4, 0x42, 0x7D, 0x18, 0xC9] = .instr (.vexSsYmmReg [] 9#4 9#4) [] := by decide

/-- T7: VBROADCASTSD ymm1, xmm2. -/
theorem test_decode_vexSdYmmReg : decode [0xC4, 0xE2, 0x7D, 0x19, 0xCA] = .instr (.vexSdYmmReg [] 1#4 2#4) [] := by decide

/-- T15: VBROADCASTSD ymm1, xmm2. -/
theorem test_decode_evexSdYmm : decode [0x62, 0xF2, 0xFD, 0x28, 0x19, 0xCA] = .instr (.evexSdYmm [] 1#5 ⟨0#3, false⟩ (.reg 2#5)) [] := by decide

/-- T16: VBROADCASTSD zmm1 with k1 and z, [rax+8]. -/
theorem test_decode_evexSdZmm : decode [0x62, 0xF2, 0xFD, 0xC9, 0x19, 0x48, 0x01] = .instr (.evexSdZmm [] 1#5 ⟨1#3, true⟩ (.mem (.base 0#4 (.disp8 1#8)))) [] := by decide

/-- T20: VBROADCASTF32X2 ymm1, xmm2. -/
theorem test_decode_evexF32x2Ymm : decode [0x62, 0xF2, 0x7D, 0x28, 0x19, 0xCA] = .instr (.evexF32x2Ymm [] 1#5 ⟨0#3, false⟩ (.reg 2#5)) [] := by decide

/-- T21: VBROADCASTF32X2 zmm1 with k3, [rax+8]. -/
theorem test_decode_evexF32x2Zmm : decode [0x62, 0xF2, 0x7D, 0x4B, 0x19, 0x48, 0x01] = .instr (.evexF32x2Zmm [] 1#5 ⟨3#3, false⟩ (.mem (.base 0#4 (.disp8 1#8)))) [] := by decide

/-- T11: VBROADCASTSS xmm1 with k1, [rax+4]. -/
theorem test_decode_evexSsXmm : decode [0x62, 0xF2, 0x7D, 0x09, 0x18, 0x48, 0x01] = .instr (.evexSsXmm [] 1#5 ⟨1#3, false⟩ (.mem (.base 0#4 (.disp8 1#8)))) [] := by decide

/-- T12: VBROADCASTSS ymm1 with k1 and z, xmm2. -/
theorem test_decode_evexSsYmm : decode [0x62, 0xF2, 0x7D, 0xA9, 0x18, 0xCA] = .instr (.evexSsYmm [] 1#5 ⟨1#3, true⟩ (.reg 2#5)) [] := by decide

/-- T14: VBROADCASTSS zmm17 with k7, xmm18; P0 = A2H extends both numbers. -/
theorem test_decode_evexSsZmm : decode [0x62, 0xA2, 0x7D, 0x4F, 0x18, 0xCA] = .instr (.evexSsZmm [] 17#5 ⟨7#3, false⟩ (.reg 18#5)) [] := by decide

/-- T24: VBROADCASTF32X4 ymm0 with k2, [rax]. -/
theorem test_decode_evexF32x4Ymm : decode [0x62, 0xF2, 0x7D, 0x2A, 0x1A, 0x00] = .instr (.evexF32x4Ymm [] 0#5 ⟨2#3, false⟩ (.base 0#4 .absent)) [] := by decide

/-- T31: VBROADCASTF32X4 zmm0, [rax-10H]. -/
theorem test_decode_evexF32x4Zmm : decode [0x62, 0xF2, 0x7D, 0x48, 0x1A, 0x40, 0xFF] = .instr (.evexF32x4Zmm [] 0#5 ⟨0#3, false⟩ (.base 0#4 (.disp8 0xFF#8))) [] := by decide

/-- T26: VBROADCASTF64X2 ymm1, [rax+16]. -/
theorem test_decode_evexF64x2Ymm : decode [0x62, 0xF2, 0xFD, 0x28, 0x1A, 0x48, 0x01] = .instr (.evexF64x2Ymm [] 1#5 ⟨0#3, false⟩ (.base 0#4 (.disp8 1#8))) [] := by decide

/-- T27: VBROADCASTF64X2 zmm0 with k5 and z, [rbx]. -/
theorem test_decode_evexF64x2Zmm : decode [0x62, 0xF2, 0xFD, 0xCD, 0x1A, 0x03] = .instr (.evexF64x2Zmm [] 0#5 ⟨5#3, true⟩ (.base 3#4 .absent)) [] := by decide

/-- T28: VBROADCASTF32X8 zmm30 with k7 and z, [rax+r9*4+20H]. -/
theorem test_decode_evexF32x8Zmm : decode [0x62, 0x22, 0x7D, 0xCF, 0x1B, 0x74, 0x88, 0x01] = .instr (.evexF32x8Zmm [] 30#5 ⟨7#3, true⟩ (.sib 2#2 9#4 0#4 (.disp8 1#8))) [] := by decide

/-- T29: VBROADCASTF64X4 zmm5, [rbx+40H]. -/
theorem test_decode_evexF64x4Zmm : decode [0x62, 0xF2, 0xFD, 0x48, 0x1B, 0x6B, 0x02] = .instr (.evexF64x4Zmm [] 5#5 ⟨0#3, false⟩ (.base 3#4 (.disp8 2#8))) [] := by decide

/-- T32 to T41: the #UD words the source states. -/
theorem test_ud_source :
    decode [0xC4, 0xE2, 0x71, 0x18, 0x08] = .undefinedOpcode ∧
    decode [0x62, 0xF2, 0x75, 0x48, 0x18, 0xCA] = .undefinedOpcode ∧
    decode [0xC4, 0xE2, 0x79, 0x19, 0x08] = .undefinedOpcode ∧
    decode [0xC4, 0xE2, 0x79, 0x1A, 0x08] = .undefinedOpcode ∧
    decode [0xC4, 0xE2, 0x7D, 0x1A, 0xCA] = .undefinedOpcode ∧
    decode [0x62, 0xF2, 0xFD, 0x08, 0x19, 0xCA] = .undefinedOpcode ∧
    decode [0x62, 0xF2, 0x7D, 0x08, 0x19, 0xCA] = .undefinedOpcode ∧
    decode [0x62, 0xF2, 0x7D, 0x08, 0x1A, 0x00] = .undefinedOpcode ∧
    decode [0x62, 0xF2, 0x7D, 0x28, 0x1B, 0x00] = .undefinedOpcode ∧
    decode [0x62, 0xF2, 0xFD, 0x08, 0x1B, 0x00] = .undefinedOpcode := by decide

/-- T42 to T49 and T65: the #UD words of decision D17. -/
theorem test_ud_decision :
    decode [0xC4, 0xE2, 0xFD, 0x18, 0x08] = .undefinedOpcode ∧
    decode [0x62, 0xF2, 0xFD, 0x48, 0x18, 0xCA] = .undefinedOpcode ∧
    decode [0x62, 0xF2, 0x7D, 0x48, 0x1A, 0xCA] = .undefinedOpcode ∧
    decode [0x62, 0xF2, 0xFD, 0x48, 0x1B, 0xCA] = .undefinedOpcode ∧
    decode [0x62, 0xF2, 0x7D, 0x58, 0x18, 0x08] = .undefinedOpcode ∧
    decode [0x62, 0xF2, 0x7D, 0xC8, 0x18, 0xCA] = .undefinedOpcode ∧
    decode [0x62, 0xF2, 0x7D, 0x68, 0x18, 0xCA] = .undefinedOpcode ∧
    decode [0x62, 0xF2, 0x7D, 0x40, 0x18, 0xCA] = .undefinedOpcode ∧
    decode [0x62, 0xF2, 0x79, 0x48, 0x18, 0xCA] = .undefinedOpcode := by decide

/-- T50, T51, and F2H, F3H, REX in front (30_encoding.md R61), one behind an allowed byte. -/
theorem test_ud_front :
    decode [0xF0, 0xC4, 0xE2, 0x7D, 0x18, 0x07] = .undefinedOpcode ∧
    decode [0x66, 0xC4, 0xE2, 0x7D, 0x18, 0x07] = .undefinedOpcode ∧
    decode [0xF2, 0xC4, 0xE2, 0x7D, 0x18, 0x07] = .undefinedOpcode ∧
    decode [0xF3, 0xC4, 0xE2, 0x7D, 0x18, 0x07] = .undefinedOpcode ∧
    decode [0x48, 0xC4, 0xE2, 0x7D, 0x18, 0x07] = .undefinedOpcode ∧
    decode [0x65, 0x66, 0xC4, 0xE2, 0x7D, 0x18, 0x07] = .undefinedOpcode := by decide

/-- T64, another map, another pp, another opcode, EVEX map 0F38 with opcode 1CH (30_encoding.md R77). -/
theorem test_not_this_family :
    decode [0xC5, 0xFD, 0x18, 0x07] = .notThisFamily ∧
    decode [0xC4, 0xE1, 0x7D, 0x18, 0x07] = .notThisFamily ∧
    decode [0xC4, 0xE2, 0x7C, 0x18, 0x07] = .notThisFamily ∧
    decode [0xC4, 0xE2, 0x7D, 0x1B, 0x07] = .notThisFamily ∧
    decode [0x62, 0xF2, 0x7D, 0x48, 0x1C, 0x00] = .notThisFamily ∧
    decode [0x90] = .notThisFamily := by decide

/-- An instruction that is cut off is incomplete, not undefined. -/
theorem test_incomplete : decode [0xC4, 0xE2, 0x7D, 0x18] = .incomplete ∧ decode [0x62, 0xF2, 0x7D, 0x48, 0x18, 0x48] = .incomplete ∧
    decode [] = .incomplete := by decide

/-- The encoder writes T28 and T9 back. -/
theorem test_encode : encode (.evexF32x8Zmm [] 30#5 ⟨7#3, true⟩ (.sib 2#2 9#4 0#4 (.disp8 1#8))) =
      [0x62, 0x22, 0x7D, 0xCF, 0x1B, 0x74, 0x88, 0x01] ∧
    encode (.vexSdYmmMem [] 12#4 (.sib 2#2 14#4 13#4 (.disp32 0x100#32))) =
      [0xC4, 0x02, 0x7D, 0x19, 0xA4, 0xB5, 0x00, 0x01, 0x00, 0x00] := by decide

/-! ## One step: the vectors of the spec, one for each row -/

/-- T1; the old destination is all ones. -/
theorem test_step_vexSsXmmMem :
    completes (withX 0 0x1000#64 ((start [0xC4, 0xE2, 0x79, 0x18, 0x08] 0x1000 [0x00, 0x00, 0x80, 0x3F]).setV 1#5 (BitVec.allOnes 512)))
      1#5 0x3F8000003F8000003F8000003F800000#512 5 = true := by decide +kernel

/-- T10: relative to the address of the next instruction. -/
theorem test_step_vexSsYmmMem :
    completes (start [0xC4, 0xE2, 0x7D, 0x18, 0x05, 0x10, 0x00, 0x00, 0x00] 0x400019 [0x44, 0x33, 0x22, 0x11])
      0#5 0x1122334411223344112233441122334411223344112233441122334411223344#512 9 = true := by decide +kernel

/-- T9. -/
theorem test_step_vexSdYmmMem :
    completes (withX 13 0x10000#64 (withX 14 0x40#64 (start [0xC4, 0x02, 0x7D, 0x19, 0xA4, 0xB5, 0x00, 0x01, 0x00, 0x00] 0x10200 [0x01, 0x02, 0x03, 0x04, 0x05, 0x06, 0x07, 0x08])))
      12#5 0x0807060504030201080706050403020108070605040302010807060504030201#512 10 = true := by decide +kernel

/-- T4: an odd address. -/
theorem test_step_vexF128YmmMem :
    completes (withX 2 0x4001#64 (start [0xC4, 0xE2, 0x7D, 0x1A, 0x1A] 0x4001 [0x00, 0x01, 0x02, 0x03, 0x04, 0x05, 0x06, 0x07, 0x08, 0x09, 0x0A, 0x0B, 0x0C, 0x0D, 0x0E, 0x0F]))
      3#5 0x0F0E0D0C0B0A090807060504030201000F0E0D0C0B0A09080706050403020100#512 5 = true := by decide +kernel

/-- T5: a NaN is copied bit for bit. -/
theorem test_step_vexSsXmmReg :
    completes ((start [0xC4, 0xE2, 0x79, 0x18, 0xCA] 0x1000 []).setV 2#5 0xAAAAAAAA7FC00001#512)
      1#5 0x7FC000017FC000017FC000017FC00001#512 5 = true := by decide +kernel

/-- T8: the destination is the source. -/
theorem test_step_vexSsYmmReg :
    completes ((start [0xC4, 0x42, 0x7D, 0x18, 0xC9] 0x1000 []).setV 9#5 oldDwords)
      9#5 0xDD000000DD000000DD000000DD000000DD000000DD000000DD000000DD000000#512 5 = true := by decide +kernel

/-- T7. -/
theorem test_step_vexSdYmmReg :
    completes ((start [0xC4, 0xE2, 0x7D, 0x19, 0xCA] 0x1000 []).setV 2#5 0x12347FF0000000000000#512)
      1#5 0x7FF00000000000007FF00000000000007FF00000000000007FF0000000000000#512 5 = true := by decide +kernel

/-- 41_evex_scalar_broadcast.md R113, example: k1 = 0110b, merging. -/
theorem test_step_evexSdYmm :
    completes (withK 1 6#64 (((start [0x62, 0xF2, 0xFD, 0x29, 0x19, 0xCA] 0x1000 []).setV 2#5 0x3FF0000000000000#512).setV 1#5
      0xDDDDDDDDDDDDDDDDCCCCCCCCCCCCCCCCBBBBBBBBBBBBBBBBAAAAAAAAAAAAAAAA#512))
      1#5 0xDDDDDDDDDDDDDDDD3FF00000000000003FF0000000000000AAAAAAAAAAAAAAAA#512 6 = true := by decide +kernel

/-- T16. -/
theorem test_step_evexSdZmm :
    completes (withX 0 0x1000#64 (withK 1 0x81#64 (start [0x62, 0xF2, 0xFD, 0xC9, 0x19, 0x48, 0x01] 0x1008 [0x18, 0x2D, 0x44, 0x54, 0xFB, 0x21, 0x09, 0x40])))
      1#5 0x400921FB54442D18000000000000000000000000000000000000000000000000000000000000000000000000000000000000000000000000400921FB54442D18#512 7 = true := by decide +kernel

/-- T20. -/
theorem test_step_evexF32x2Ymm :
    completes ((start [0x62, 0xF2, 0x7D, 0x28, 0x19, 0xCA] 0x1000 []).setV 2#5 0x99400000003F800000#512)
      1#5 0x400000003F800000400000003F800000400000003F800000400000003F800000#512 6 = true := by decide +kernel

/-- T23: the destination is the source, and element 0 is zeroed. -/
theorem test_step_evexF32x2Zmm :
    completes (withK 1 0xFFFE#64 ((start [0x62, 0xF2, 0x7D, 0xC9, 0x19, 0xD2] 0x1000 []).setV 2#5
      ((oldDwords >>> 64 <<< 64) ||| 0x2222222211111111#512)))
      2#5 0x22222222111111112222222211111111222222221111111122222222111111112222222211111111222222221111111122222222111111112222222200000000#512 6 = true := by decide +kernel

/-- T11. -/
theorem test_step_evexSsXmm :
    completes (withX 0 0x1000#64 (withK 1 5#64 ((start [0x62, 0xF2, 0x7D, 0x09, 0x18, 0x48, 0x01] 0x1004 [0xDB, 0x0F, 0x49, 0x40]).setV 1#5 oldDwords)))
      1#5 0xDD00000340490FDBDD00000140490FDB#512 7 = true := by decide +kernel

/-- T17: every element masked off; the bits above are zeroed all the same. -/
theorem test_step_evexSsYmm :
    completes (withX 0 0x1000#64 ((start [0x62, 0xF2, 0x7D, 0x29, 0x18, 0x08] 0x1000 [0x00, 0x00, 0x80, 0x3F]).setV 1#5 oldDwords))
      1#5 0xDD000007DD000006DD000005DD000004DD000003DD000002DD000001DD000000#512 6 = true := by decide +kernel

/-- T14: mask bits 63:16 are ignored. -/
theorem test_step_evexSsZmm :
    completes (withK 7 0xFFFFFFFFFFFF0001#64 (((start [0x62, 0xA2, 0x7D, 0x4F, 0x18, 0xCA] 0x1000 []).setV 18#5 0x12345678#512).setV 17#5 oldDwords))
      17#5 0xDD00000FDD00000EDD00000DDD00000CDD00000BDD00000ADD000009DD000008DD000007DD000006DD000005DD000004DD000003DD000002DD00000112345678#512 6 = true := by decide +kernel

/-- T24. -/
theorem test_step_evexF32x4Ymm :
    completes (withX 0 0x1000#64 (withK 2 0x5A#64 ((start [0x62, 0xF2, 0x7D, 0x2A, 0x1A, 0x00] 0x1000 [0xA0, 0x00, 0x00, 0x00, 0xA1, 0x00, 0x00, 0x00, 0xA2, 0x00, 0x00, 0x00, 0xA3, 0x00, 0x00, 0x00]).setV 0#5 oldDwords)))
      0#5 0xDD000007000000A2DD000005000000A0000000A3DD000002000000A1DD000000#512 6 = true := by decide +kernel

/-- T25. -/
theorem test_step_evexF32x4Zmm :
    completes (withX 0 0x1000#64 (withK 2 0x8421#64 (start [0x62, 0xF2, 0x7D, 0xCA, 0x1A, 0x00] 0x1000 [0xA0, 0x00, 0x00, 0x00, 0xA1, 0x00, 0x00, 0x00, 0xA2, 0x00, 0x00, 0x00, 0xA3, 0x00, 0x00, 0x00])))
      0#5 0x000000A300000000000000000000000000000000000000A200000000000000000000000000000000000000A100000000000000000000000000000000000000A0#512 6 = true := by decide +kernel

/-- T26: the bits above are zero by decision D16 (log 16). -/
theorem test_step_evexF64x2Ymm :
    completes (withX 0 0x1000#64 ((start [0x62, 0xF2, 0xFD, 0x28, 0x1A, 0x48, 0x01] 0x1010 [0xAA, 0xAA, 0xAA, 0xAA, 0xAA, 0xAA, 0xAA, 0xAA, 0xBB, 0xBB, 0xBB, 0xBB, 0xBB, 0xBB, 0xBB, 0xBB]).setV 1#5 oldQwords))
      1#5 0xBBBBBBBBBBBBBBBBAAAAAAAAAAAAAAAABBBBBBBBBBBBBBBBAAAAAAAAAAAAAAAA#512 7 = true := by decide +kernel

/-- T27. -/
theorem test_step_evexF64x2Zmm :
    completes (withX 3 0x1000#64 (withK 5 0xA5#64 (start [0x62, 0xF2, 0xFD, 0xCD, 0x1A, 0x03] 0x1000 [0xAA, 0xAA, 0xAA, 0xAA, 0xAA, 0xAA, 0xAA, 0xAA, 0xBB, 0xBB, 0xBB, 0xBB, 0xBB, 0xBB, 0xBB, 0xBB])))
      0#5 0xBBBBBBBBBBBBBBBB0000000000000000BBBBBBBBBBBBBBBB00000000000000000000000000000000AAAAAAAAAAAAAAAA0000000000000000AAAAAAAAAAAAAAAA#512 6 = true := by decide +kernel

/-- T28. -/
theorem test_step_evexF32x8Zmm :
    completes (withX 0 0x8000#64 (withX 9 0x10#64 (withK 7 0xFF00#64 (start [0x62, 0x22, 0x7D, 0xCF, 0x1B, 0x74, 0x88, 0x01] 0x8060 [0x00, 0x00, 0x00, 0x00, 0x01, 0x00, 0x00, 0x00, 0x02, 0x00, 0x00, 0x00, 0x03, 0x00, 0x00, 0x00, 0x04, 0x00, 0x00, 0x00, 0x05, 0x00, 0x00, 0x00, 0x06, 0x00, 0x00, 0x00, 0x07, 0x00, 0x00, 0x00]))))
      30#5 0x00000007000000060000000500000004000000030000000200000001000000000000000000000000000000000000000000000000000000000000000000000000#512 8 = true := by decide +kernel

/-- T30. -/
theorem test_step_evexF64x4Zmm :
    completes (withX 3 0x1000#64 (withK 4 0x3C#64 ((start [0x62, 0xF2, 0xFD, 0x4C, 0x1B, 0x2B] 0x1000 [0x11, 0x11, 0x11, 0x11, 0x11, 0x11, 0x11, 0x11, 0x22, 0x22, 0x22, 0x22, 0x22, 0x22, 0x22, 0x22, 0x33, 0x33, 0x33, 0x33, 0x33, 0x33, 0x33, 0x33, 0x44, 0x44, 0x44, 0x44, 0x44, 0x44, 0x44, 0x44]).setV 5#5 oldQwords)))
      5#5 0xDDDD000000000007DDDD0000000000062222222222222222111111111111111144444444444444443333333333333333DDDD000000000001DDDD000000000000#512 6 = true := by decide +kernel

/-! ## Loading, and which mode refuses -/

/-- A word of the table placed where the next step fetches runs as the first instruction after reset (log 12). -/
theorem test_withFetchWord : decodeTableWord 48 0xCA18487DF262 = some (.evexSsZmm [] 1#5 ⟨0#3, false⟩ (.reg 2#5)) ∧
    isNext (step (State.reset.withFetchWord 48 0xCA18487DF262)) = true := by decide +kernel

/-- Nothing placed: the bytes 00H are outside the family (log 12). -/
theorem test_step_of_bare_reset : refusalOf (step State.reset) = some .notThisFamily := by decide +kernel

/-! ## One step: faults and refusals of the vectors -/

/-- CPUID.(7,0):EBX replaced. -/
def withEbx (v : BitVec 32) (s : State) : State := { s with cfg := { s.cfg with cpuid7Ebx := v } }

/-- One region of `Translate`. -/
def withRegion (r : Region) (s : State) : State := { s with cfg := { s.cfg with regions := [r] } }

/-- AC_ENABLED true: CR0.AM, EFLAGS.AC, CPL = 3. -/
def withAlignmentCheck (s : State) : State := { s with cr0 := 0xE0040011#64, rflags := 0x40002#64, cpl := 3#2 }

/-- The page at 1000H is not present. -/
def absentPage : Region := ⟨0x1000#64, 4096, false, true, true, false, 0x1000#64⟩

/-- The page at 1000H is a device. -/
def devicePage : Region := ⟨0x1000#64, 4096, true, true, true, true, 0x1000#64⟩

/-- VBROADCASTSS ymm0, [rdi] with RDI = 2000H (T2). -/
def t2 : State := withX 7 0x2000#64 (start [0xC4, 0xE2, 0x7D, 0x18, 0x07] 0x2000 [0xDB, 0x0F, 0x49, 0xC0])

/-- T2, and T52: without AVX2 the memory form runs, the register form does not. -/
theorem test_avx2 : completes (withEbx 0x80030000#32 t2) 0#5 0xC0490FDBC0490FDBC0490FDBC0490FDBC0490FDBC0490FDBC0490FDBC0490FDB#512 5 = true ∧
    faultOf (step (withEbx 0x80030000#32 (start [0xC4, 0xE2, 0x7D, 0x18, 0xCA] 0 []))) = some .ud := by decide +kernel

/-- T53 and T54: AVX512VL absent, AVX512DQ absent. -/
theorem test_avx512_flags :
    faultOf (step (withEbx 0x30020#32 (start [0x62, 0xF2, 0x7D, 0x28, 0x18, 0xCA] 0 []))) = some .ud ∧
    isNext (step (withEbx 0x30020#32 (start [0x62, 0xF2, 0x7D, 0x48, 0x18, 0xCA] 0 []))) = true ∧
    faultOf (step (withEbx 0x80010020#32 (start [0x62, 0xF2, 0x7D, 0x48, 0x19, 0xCA] 0 []))) = some .ud ∧
    isNext (step (withEbx 0x80010020#32 (start [0x62, 0xF2, 0xFD, 0x48, 0x19, 0xCA] 0 []))) = true := by decide +kernel

/-- T55, T56, T57. -/
theorem test_environment : faultOf (step { t2 with cr4 := 0#64 }) = some .ud ∧ faultOf (step { t2 with xcr0 := 3#64 }) = some .ud ∧
    faultOf (step { t2 with cr0 := 0xE0000019#64 }) = some .nm ∧
    faultOf (step (withRegion absentPage (withX 0 0x1000#64
      { start [0xC4, 0xE2, 0x71, 0x18, 0x08] 0 [] with cr0 := 0xE0000019#64 }))) = some .ud := by decide +kernel

/-- T58, T59, T60. -/
theorem test_not_canonical : faultOf (step (withX 7 0x0000800000000000#64 t2)) = some .gp ∧
    faultOf (step (withX 5 0x0000800000000000#64 (start [0xC4, 0xE2, 0x7D, 0x18, 0x45, 0x00] 0 []))) = some .ss ∧
    faultOf (step (withX 7 0x00007FFFFFFFFFFC#64 (start [0xC4, 0xE2, 0x7D, 0x19, 0x07] 0 []))) = some .gp := by decide +kernel

/-- T61: all elements masked off, page not present: #PF with the operand's address. -/
theorem test_masked_page_fault : faultOf (step (withRegion absentPage (withX 0 0x1000#64
    (start [0x62, 0xF2, 0x7D, 0x29, 0x18, 0x08] 0 [])))) = some (.pf 0x1000#64 0#32) := by decide +kernel

/-- T62, T63. -/
theorem test_alignment : faultOf (step (withAlignmentCheck (withX 7 0x2001#64 t2))) = some .ac ∧
    isNext (step (withX 7 0x2001#64 t2)) = true ∧
    refusalOf (step (withAlignmentCheck (withX 2 0x4001#64 (start [0xC4, 0xE2, 0x7D, 0x1A, 0x1A] 0 [])))) =
      some .wideAlignmentCheck := by decide +kernel

/-- T66: the GS base is added. -/
theorem test_gs_override : completes
    { withX 7 0x20#64 (start [0x65, 0xC4, 0xE2, 0x7D, 0x18, 0x07] 0x7020 [0x44, 0x33, 0x22, 0x11]) with gsBase := 0x7000#64 }
    0#5 0x1122334411223344112233441122334411223344112233441122334411223344#512 6 = true := by decide +kernel

/-- A data operand in device memory is refused, and so are code bytes there (decision D9). -/
theorem test_device : refusalOf (step (withRegion devicePage (withX 7 0x1FFD#64 t2))) = some .deviceMemory ∧
    refusalOf (step { withRegion devicePage t2 with pc := 0x1000#64 }) = some .deviceMemory := by decide +kernel

/-! ## States and operands that meet the hypotheses of the obligations -/

/-- RAX = 1000H, 32 bytes of data there. -/
def loaded : State := withX 0 0x1000#64 (start [] 0x1000 (List.replicate 32 0x5A#8))

/-- [rax] -/
def atRax : MemOperand := .base 0#4 .absent

/-- k1, zeroing. -/
def k1z : Masking := ⟨1#3, true⟩

theorem loaded_ready (e : Scheme) (needs : List Feature) : Ready e needs loaded :=
  ⟨by decide, by decide, by decide, fun _ => by decide, fun f _ => by cases f <;> decide, by decide⟩

theorem loaded_readable : Readable (32 / 8) 0x1000#64 loaded ∧ Readable (64 / 8) 0x1000#64 loaded ∧
    Readable (128 / 8) 0x1000#64 loaded ∧ Readable (256 / 8) 0x1000#64 loaded :=
  ⟨readable_of _ _ _ (by decide +kernel), readable_of _ _ _ (by decide +kernel), readable_of _ _ _ (by decide +kernel),
    readable_of _ _ _ (by decide +kernel)⟩

theorem atRax_address (ps : List LegacyPrefix) (hp : ps = []) (nextpc : Word64) (scale : Nat) :
    loaded.linearAddress ps nextpc scale atRax = 0x1000#64 := by subst hp; rfl

/-- What the effect and the encoding clause of a row assume. -/
def Premises (i : Instr) (n : Nat) : Prop :=
  Ready (scheme i) (needs i) loaded ∧ SourceReadable n (dispScale i) i (legacyPrefixes i) (sourceOf i) loaded ∧ i.wellFormed = true

/-- A row with the memory operand [rax] and no legacy byte meets the premises. -/
theorem premises_mem (i : Instr) (n : Nat) (hs : sourceOf i = .mem atRax) (hp : legacyPrefixes i = [])
    (hr : Readable n 0x1000#64 loaded) (hw : i.wellFormed = true) : Premises i n := by
  refine ⟨loaded_ready _ _, ?_, hw⟩
  rw [hs]
  show Readable n (loaded.linearAddress _ _ _ atRax) loaded
  rwa [atRax_address _ hp]

/-- A row with a register source meets the premises. -/
theorem premises_reg (i : Instr) (n : Nat) (r : BitVec 5) (hs : sourceOf i = .reg r) (hw : i.wellFormed = true) :
    Premises i n := ⟨loaded_ready _ _, by rw [hs]; trivial, hw⟩

/-! The premises of each row: memory operand, register operand, or both. -/

theorem witness_VbroadcastssXmmMemRow : Premises (.vexSsXmmMem [] 1#4 atRax) 4 := premises_mem _ _ rfl rfl loaded_readable.1 (by decide)

theorem witness_VbroadcastssYmmMemRow : Premises (.vexSsYmmMem [] 1#4 atRax) 4 := premises_mem _ _ rfl rfl loaded_readable.1 (by decide)

theorem witness_VbroadcastsdYmmMemRow : Premises (.vexSdYmmMem [] 1#4 atRax) 8 := premises_mem _ _ rfl rfl loaded_readable.2.1 (by decide)

theorem witness_Vbroadcastf128YmmMemRow : Premises (.vexF128YmmMem [] 1#4 atRax) 16 := premises_mem _ _ rfl rfl loaded_readable.2.2.1 (by decide)

theorem witness_VbroadcastssXmmRegRow : Premises (.vexSsXmmReg [] 9#4 9#4) 4 := premises_reg _ _ 9#5 rfl (by decide)

theorem witness_VbroadcastssYmmRegRow : Premises (.vexSsYmmReg [] 9#4 9#4) 4 := premises_reg _ _ 9#5 rfl (by decide)

theorem witness_VbroadcastsdYmmRegRow : Premises (.vexSdYmmReg [] 9#4 9#4) 8 := premises_reg _ _ 9#5 rfl (by decide)

theorem witness_EvexVbroadcastssXmmRow : Premises (.evexSsXmm [] 31#5 k1z (.mem atRax)) 4 ∧
    Premises (.evexSsXmm [] 31#5 k1z (.reg 31#5)) 4 :=
  ⟨premises_mem _ _ rfl rfl loaded_readable.1 (by decide), premises_reg _ _ 31#5 rfl (by decide)⟩

theorem witness_EvexVbroadcastssYmmRow : Premises (.evexSsYmm [] 31#5 k1z (.mem atRax)) 4 ∧
    Premises (.evexSsYmm [] 31#5 k1z (.reg 31#5)) 4 :=
  ⟨premises_mem _ _ rfl rfl loaded_readable.1 (by decide), premises_reg _ _ 31#5 rfl (by decide)⟩

theorem witness_EvexVbroadcastssZmmRow : Premises (.evexSsZmm [] 31#5 k1z (.mem atRax)) 4 ∧
    Premises (.evexSsZmm [] 31#5 k1z (.reg 31#5)) 4 :=
  ⟨premises_mem _ _ rfl rfl loaded_readable.1 (by decide), premises_reg _ _ 31#5 rfl (by decide)⟩

theorem witness_EvexVbroadcastsdYmmRow : Premises (.evexSdYmm [] 31#5 k1z (.mem atRax)) 8 ∧
    Premises (.evexSdYmm [] 31#5 k1z (.reg 31#5)) 8 :=
  ⟨premises_mem _ _ rfl rfl loaded_readable.2.1 (by decide), premises_reg _ _ 31#5 rfl (by decide)⟩

theorem witness_EvexVbroadcastsdZmmRow : Premises (.evexSdZmm [] 31#5 k1z (.mem atRax)) 8 ∧
    Premises (.evexSdZmm [] 31#5 k1z (.reg 31#5)) 8 :=
  ⟨premises_mem _ _ rfl rfl loaded_readable.2.1 (by decide), premises_reg _ _ 31#5 rfl (by decide)⟩

theorem witness_EvexVbroadcastf32x2YmmRow : Premises (.evexF32x2Ymm [] 31#5 k1z (.mem atRax)) 8 ∧
    Premises (.evexF32x2Ymm [] 31#5 k1z (.reg 31#5)) 8 :=
  ⟨premises_mem _ _ rfl rfl loaded_readable.2.1 (by decide), premises_reg _ _ 31#5 rfl (by decide)⟩

theorem witness_EvexVbroadcastf32x2ZmmRow : Premises (.evexF32x2Zmm [] 31#5 k1z (.mem atRax)) 8 ∧
    Premises (.evexF32x2Zmm [] 31#5 k1z (.reg 31#5)) 8 :=
  ⟨premises_mem _ _ rfl rfl loaded_readable.2.1 (by decide), premises_reg _ _ 31#5 rfl (by decide)⟩

theorem witness_EvexVbroadcastf32x4YmmRow : Premises (.evexF32x4Ymm [] 31#5 k1z atRax) 16 :=
  premises_mem _ _ rfl rfl loaded_readable.2.2.1 (by decide)

theorem witness_EvexVbroadcastf32x4ZmmRow : Premises (.evexF32x4Zmm [] 31#5 k1z atRax) 16 :=
  premises_mem _ _ rfl rfl loaded_readable.2.2.1 (by decide)

theorem witness_EvexVbroadcastf64x2YmmRow : Premises (.evexF64x2Ymm [] 31#5 k1z atRax) 16 :=
  premises_mem _ _ rfl rfl loaded_readable.2.2.1 (by decide)

theorem witness_EvexVbroadcastf64x2ZmmRow : Premises (.evexF64x2Zmm [] 31#5 k1z atRax) 16 :=
  premises_mem _ _ rfl rfl loaded_readable.2.2.1 (by decide)

theorem witness_EvexVbroadcastf32x8ZmmRow : Premises (.evexF32x8Zmm [] 31#5 k1z atRax) 32 :=
  premises_mem _ _ rfl rfl loaded_readable.2.2.2 (by decide)

theorem witness_EvexVbroadcastf64x4ZmmRow : Premises (.evexF64x4Zmm [] 31#5 k1z atRax) 32 :=
  premises_mem _ _ rfl rfl loaded_readable.2.2.2 (by decide)

/-! The exception clauses of every row (`CommonExceptions`) and the statements over all forms. -/

/-- Every mode of the table is reached by some state. -/
theorem witness_modes : ({ loaded with cr0 := 0xE0000010#64 }).mode = .realAddress ∧
    ({ loaded with rflags := 0x20002#64 }).mode = .virtual8086 ∧ ({ loaded with csL := false }).mode = .compatibility ∧
    ({ loaded with lma := false }).mode = .protected32 ∧ ({ loaded with smm := true }).mode = .systemManagement := by decide

/-- `EnablingStops`, clause by clause: the modes above, each disabled condition alone, and TS = 1 with all others met. -/
theorem witness_EnablingConditionsInOrder :
    (({ loaded with cr4 := 0#64 }).mode = .bits64 ∧ ({ loaded with cr4 := 0#64 }).osxsave = false) ∧
    (({ loaded with xcr0 := 5#64 }).mode = .bits64 ∧ ({ loaded with xcr0 := 5#64 }).xcr0Avx = false) ∧
    (({ loaded with xcr0 := 0x67#64 }).mode = .bits64 ∧ ({ loaded with xcr0 := 0x67#64 }).xcr0Avx512 = false) ∧
    ((withEbx 0x80010020#32 loaded).mode = .bits64 ∧ hasFeature (withEbx 0x80010020#32 loaded).cfg .avx512dq = false) ∧
    (({ loaded with cr0 := 0xE0000019#64 }).mode = .bits64 ∧ ({ loaded with cr0 := 0xE0000019#64 }).osxsave = true ∧
      ({ loaded with cr0 := 0xE0000019#64 }).xcr0Avx = true ∧ ({ loaded with cr0 := 0xE0000019#64 }).xcr0Avx512 = true ∧
      ({ loaded with cr0 := 0xE0000019#64 }).cfg = Config.default ∧ ({ loaded with cr0 := 0xE0000019#64 }).ts = true) := by
  decide

/-- The modes that are refused, by step and by exec. -/
theorem witness_OtherModesAreRefused : refusalOf (step { t2 with csL := false }) = some .modeNotSpecified ∧
    refusalOf (exec (.vexSsYmmMem [] 0#4 (.base 7#4 .absent)) { t2 with smm := true }) = some .modeNotSpecified := by
  decide +kernel

/-- `MemoryStops`, first clause: the last of the operand's bytes is the first that is not canonical, in DS and in SS. -/
theorem witness_memory_not_canonical :
    operandAddress (.vexSdYmmMem [] 0#4 (.base 7#4 .absent)) (withX 7 0x00007FFFFFFFFFF9#64 loaded) = some (.ds, 0x00007FFFFFFFFFF9#64) ∧
    operandAddress (.vexSdYmmMem [] 0#4 (.base 5#4 (.disp8 0#8))) (withX 5 0x00007FFFFFFFFFF9#64 loaded) = some (.ss, 0x00007FFFFFFFFFF9#64) ∧
    canonical 48 (byteAddress 0x00007FFFFFFFFFF9#64 7) = false ∧
    (∀ k < 7, canonical 48 (byteAddress 0x00007FFFFFFFFFF9#64 k) = true) := by decide

/-- The canonical check of R47 at VA_BITS = 1, 48 and 64, on both sides of the hole. -/
theorem witness_MemoryExceptionsInOrder :
    canonical 1 0xFFFFFFFFFFFFFFFF#64 = true ∧ canonical 1 1#64 = false ∧ canonical 48 0x00007FFFFFFFFFFF#64 = true ∧
    canonical 48 0x0000800000000000#64 = false ∧ canonical 48 0xFFFF7FFFFFFFFFFF#64 = false ∧
    canonical 48 0xFFFF800000000000#64 = true ∧ canonical 64 0x8000000000000000#64 = true := by decide

/-- `MemoryStops`, second clause: the last byte of an m256 lies on a page that is not present. -/
theorem witness_memory_page_fault :
    operandAddress (.evexF64x4Zmm [] 5#5 k1z atRax) (withX 0 0xFE1#64 loaded) = some (.ds, 0xFE1#64) ∧
    (∀ k < 32, canonical 48 (byteAddress 0xFE1#64 k) = true) ∧
    (∀ k < 31, (withRegion absentPage loaded).translate .read (byteAddress 0xFE1#64 k) = .mapped (byteAddress 0xFE1#64 k) false) ∧
    (withRegion absentPage loaded).translate .read (byteAddress 0xFE1#64 31) = .pageFault 0#32 := by decide +kernel

/-- `MemoryStops`, third clause, and the misaligned wide operand of `UnspecifiedMemoryIsRefused`: alignment checking on, mapped, not aligned. -/
theorem witness_memory_misaligned : Ready .evex [.avx512vl, .avx512f] (withAlignmentCheck (withX 0 0x1001#64 loaded)) ∧
    (withAlignmentCheck (withX 0 0x1001#64 loaded)).acEnabled = true ∧
    operandAddress (.evexSsXmm [] 5#5 k1z (.mem atRax)) (withAlignmentCheck (withX 0 0x1001#64 loaded)) = some (.ds, 0x1001#64) ∧
    operandAddress (.evexF32x4Ymm [] 5#5 k1z atRax) (withAlignmentCheck (withX 0 0x1001#64 loaded)) = some (.ds, 0x1001#64) ∧
    (∀ k < 16, canonical 48 (byteAddress 0x1001#64 k) = true ∧
      (withAlignmentCheck loaded).translate .read (byteAddress 0x1001#64 k) = .mapped (byteAddress 0x1001#64 k) false) := by
  refine ⟨⟨by decide, by decide, by decide, fun _ => by decide, fun f _ => by cases f <;> decide, by decide⟩, ?_⟩
  decide +kernel

/-- The device clause of `UnspecifiedMemoryIsRefused`: only the last byte of an m32 lies in a device. -/
theorem witness_UnspecifiedMemoryIsRefused :
    Ready .vex [.avx] (withRegion devicePage t2) ∧
    operandAddress (.vexSsYmmMem [] 0#4 (.base 7#4 .absent)) (withX 7 0xFFD#64 (withRegion devicePage t2)) = some (.ds, 0xFFD#64) ∧
    (∀ k < 3, (withRegion devicePage t2).translate .read (byteAddress 0xFFD#64 k) = .mapped (byteAddress 0xFFD#64 k) false) ∧
    (withRegion devicePage t2).translate .read (byteAddress 0xFFD#64 3) = .mapped 0x1000#64 true := by
  refine ⟨⟨by decide, by decide, by decide, fun _ => by decide, fun f _ => by cases f <;> decide, by decide⟩, ?_⟩
  decide +kernel

/-- `RegisterStops`: a register form that faults. -/
theorem witness_RegisterStops : sourceOf (.evexSsZmm [] 1#5 k1z (.reg 2#5)) = .reg 2#5 ∧
    faultOf (exec (.evexSsZmm [] 1#5 k1z (.reg 2#5)) { loaded with cr0 := 0xE0000019#64 }) = some .nm := by decide +kernel

/-- `VexBytesRaiseUd`, T34, T35, T36: the bytes at pc, inside the family's space, with and without a register operand. -/
theorem witness_VexBytesRaiseUd :
    codeBytes (start [0xC4, 0xE2, 0x79, 0x19, 0x08] 0 []) = 0xC4#8 :: 0xE2#8 :: 0x79#8 :: 0x19#8 :: 0x08#8 :: List.replicate 10 0#8 ∧
    VexSpace 0xE2#8 0x79#8 0x19#8 (0x08#8 :: List.replicate 10 0#8) ∧
    codeBytes (start [0xC4, 0xE2, 0x79, 0x1A, 0x08] 0 []) = 0xC4#8 :: 0xE2#8 :: 0x79#8 :: 0x1A#8 :: 0x08#8 :: List.replicate 10 0#8 ∧
    VexSpace 0xE2#8 0x79#8 0x1A#8 (0x08#8 :: List.replicate 10 0#8) ∧
    codeBytes (start [0xC4, 0xE2, 0x7D, 0x1A, 0xCA] 0 []) = 0xC4#8 :: 0xE2#8 :: 0x7D#8 :: 0x1A#8 :: 0xCA#8 :: List.replicate 10 0#8 ∧
    VexSpace 0xE2#8 0x7D#8 0x1A#8 (0xCA#8 :: List.replicate 10 0#8) ∧
    registerOperand (0xCA#8 :: List.replicate 10 0#8) = true := by
  unfold VexSpace; decide +kernel

/-- `EvexBytesRaiseUd`, T38 to T41, T44, T45: space, length bits and operand kind. -/
theorem witness_EvexBytesRaiseUd :
    codeBytes (start [0x62, 0xF2, 0x7D, 0x08, 0x19, 0xCA] 0 []) =
      0x62#8 :: 0xF2#8 :: 0x7D#8 :: 0x08#8 :: 0x19#8 :: 0xCA#8 :: List.replicate 9 0#8 ∧
    EvexSpace 0xF2#8 0x7D#8 0x19#8 (0xCA#8 :: List.replicate 9 0#8) ∧ (0x08#8).extractLsb' 5 2 = 0#2 ∧
    EvexSpace 0xF2#8 0x7D#8 0x1B#8 (0x00#8 :: List.replicate 9 0#8) ∧ (0x28#8).extractLsb' 5 2 = 1#2 ∧
    EvexSpace 0xF2#8 0xFD#8 0x1B#8 (0xCA#8 :: List.replicate 9 0#8) ∧ (0x48#8).extractLsb' 5 2 = 2#2 ∧
    EvexSpace 0xF2#8 0xFD#8 0x1A#8 (0xCA#8 :: List.replicate 9 0#8) ∧ registerOperand (0xCA#8 :: List.replicate 9 0#8) = true := by
  unfold EvexSpace; decide +kernel

/-- T32 and T33: vvvv = 1110b. -/
theorem witness_ReservedVvvvRaisesUd : (0x71#8).extractLsb' 3 4 ≠ 0xF#4 ∧ VexSpace 0xE2#8 0x71#8 0x18#8 [0x08#8] ∧
    (0x75#8).extractLsb' 3 4 ≠ 0xF#4 ∧ EvexSpace 0xF2#8 0x75#8 0x18#8 [0xCA#8] ∧
    faultOf (step (start [0xC4, 0xE2, 0x71, 0x18, 0x08] 0 [])) = some .ud ∧
    faultOf (step (start [0x62, 0xF2, 0x75, 0x48, 0x18, 0xCA] 0 [])) = some .ud := by
  unfold VexSpace EvexSpace; decide +kernel

/-- A VEX L bit of 0, and a form of each length that is well formed. -/
theorem witness_UnavailableLengthsRaiseUd : (0x79#8).getLsbD 2 = false ∧
    (Instr.evexSsXmm [.gs] 31#5 k1z (.mem (.sib 3#2 15#4 12#4 (.disp32 0x80000000#32)))).wellFormed = true := by decide

/-- Both sides of the AVX2 rule. -/
theorem witness_VexRegisterSourceRule : loaded.mode = .bits64 ∧ loaded.osxsave = true ∧ loaded.xcr0Avx = true ∧ loaded.ts = false ∧
    hasFeature loaded.cfg .avx2 = true ∧ hasFeature (withEbx 0x80030000#32 loaded).cfg .avx2 = false := by decide

/-- T42, T43, T46 to T49, T65: each fixed field wrong alone, inside the family's space. -/
theorem witness_UnassignedFieldValuesRaiseUd : VexSpace 0xE2#8 0xFD#8 0x18#8 [0x08#8] ∧ (0xFD#8).getLsbD 7 = true ∧
    EvexSpace 0xF2#8 0xFD#8 0x18#8 [0xCA#8] ∧ EvexSpace 0xF2#8 0x7D#8 0x18#8 [0xCA#8] ∧ (0x40#8).getLsbD 3 = false ∧
    (0x58#8).getLsbD 4 = true ∧ ((0xC8#8).getLsbD 7 = true ∧ (0xC8#8).extractLsb' 0 3 = 0#3) ∧
    (EvexSpace 0xF2#8 0x79#8 0x18#8 [0xCA#8] ∧ (0x79#8).getLsbD 2 = false) ∧ (0x68#8).extractLsb' 5 2 = 3#2 := by
  unfold VexSpace EvexSpace; decide

/-- T44 and T45: a register operand on opcodes 1AH and 1BH. -/
theorem witness_EvexRegisterSourceRaisesUd : EvexSpace 0xF2#8 0x7D#8 0x1A#8 [0xCA#8] ∧ EvexSpace 0xF2#8 0xFD#8 0x1B#8 [0xCA#8] ∧
    registerOperand [0xCA#8] = true := by unfold EvexSpace; decide

/-- A forbidden byte between allowed ones, and the form after it. -/
theorem witness_ForbiddenFrontBytesRaiseUd :
    codeBytes (start [0x65, 0x48, 0x3E, 0xC4, 0xE2, 0x7D, 0x18, 0x07] 0 []) =
      [0x65#8, 0x48#8, 0x3E#8] ++ (encode (.vexSsYmmMem [] 0#4 (.base 7#4 .absent)) ++ List.replicate 7 0#8) ∧
    (∀ b ∈ [0x65#8, 0x48#8, 0x3E#8], frontByte true b ≠ .other) ∧ frontByte true 0x48#8 = .forbidden ∧
    frontByte true 0x4F#8 = .forbidden ∧ frontByte true 0x40#8 = .forbidden ∧ frontByte true 0x3F#8 = .other ∧
    frontByte true 0x50#8 = .other := by decide +kernel

/-- Another escape, another map, another pp, another opcode; opcode 1BH is in the space of EVEX only. -/
theorem witness_BytesOutsideTheFamilyAreRefused :
    codeBytes (start [0x65, 0xC5, 0xFD, 0x18, 0x07] 0 []) = [LegacyPrefix.gs].map LegacyPrefix.byte ++ 0xC5#8 :: 0xFD#8 :: 0x18#8 :: 0x07#8 ::
      List.replicate 10 0#8 ∧ frontByte true 0xC5#8 = .other ∧
    refusalOf (step (start [0xC4, 0xE3, 0x7D, 0x18, 0x07] 0 [])) = some .notThisFamily ∧
    refusalOf (step (start [0xC4, 0xE2, 0x7D, 0x1B, 0x07] 0 [])) = some .notThisFamily ∧
    refusalOf (step (start [0x62, 0xF2, 0x7C, 0x48, 0x18, 0xCA] 0 [])) = some .notThisFamily ∧
    refusalOf (step (start [0x62, 0xF2, 0x7D, 0x48, 0x1C, 0xCA] 0 [])) = some .notThisFamily := by decide +kernel

/-- Real-address mode. -/
def realMode (s : State) : State := { s with cr0 := 0xE0000010#64 }

/-- Virtual-8086 mode. -/
def v86Mode (s : State) : State := { s with rflags := 0x20002#64 }

/-- 30_encoding.md R63 outside 64-bit mode: C4H with the inverted X (A2H) or R (62H) = 0 is another instruction, with both 1 it is a form, which raises #UD whatever the inverted B (C2H) holds; in 64-bit mode all of them are forms. EVEX bytes are forms there (log 21). -/
theorem witness_other_instruction_outside_bits64 :
    (realMode loaded).mode = .realAddress ∧ (v86Mode loaded).mode = .virtual8086 ∧ (0xA2#8).extractLsb' 6 2 ≠ 3#2 ∧
    refusalOf (step (realMode (start [0xC4, 0xA2, 0x7D, 0x18, 0x07] 0 []))) = some .notThisFamily ∧
    refusalOf (step (v86Mode (start [0x65, 0xC4, 0x62, 0x7D, 0x18, 0x07] 0 []))) = some .notThisFamily ∧
    faultOf (step (realMode (start [0xC4, 0xE2, 0x7D, 0x18, 0x07] 0 []))) = some .ud ∧
    faultOf (step (v86Mode (start [0xC4, 0xC2, 0x7D, 0x18, 0x07] 0 []))) = some .ud ∧
    faultOf (step (realMode (start [0x62, 0x32, 0x7D, 0x48, 0x18, 0x07] 0 []))) = some .ud ∧
    isNext (step (start [0xC4, 0x22, 0x7D, 0x18, 0x07] 0 [])) = true := by decide +kernel

/-- Outside 64-bit mode: another escape (48H is no byte in front there), another map, another pp, another opcode. -/
theorem witness_outside_the_family_in_other_modes :
    frontByte ((realMode loaded).mode == .bits64) 0x48#8 = .other ∧
    refusalOf (step (realMode (start [0x48, 0xC4, 0xE2, 0x7D, 0x18, 0x07] 0 []))) = some .notThisFamily ∧
    refusalOf (step (v86Mode (start [0xC4, 0xE3, 0x7D, 0x18, 0x07] 0 []))) = some .notThisFamily ∧
    refusalOf (step (realMode (start [0x62, 0xF2, 0x7C, 0x48, 0x18, 0xCA] 0 []))) = some .notThisFamily ∧
    refusalOf (step (v86Mode (start [0x62, 0xF2, 0x7D, 0x48, 0x1C, 0xCA] 0 []))) = some .notThisFamily := by decide +kernel

/-- Sixteen bytes: eleven legacy bytes before a 5-byte form. -/
theorem witness_LongInstructionsRaiseGp :
    codeBytes (start (List.replicate 11 0x2E#8 ++ [0xC4, 0xE2, 0x7D, 0x18, 0xCA]) 0 []) =
      (encode (.vexSsYmmReg (List.replicate 11 .cs) 1#4 2#4)).take maxLength ∧
    maxLength < (Instr.vexSsYmmReg (List.replicate 11 .cs) 1#4 2#4).length ∧
    (Instr.vexSsYmmReg (List.replicate 11 .cs) 1#4 2#4).operandsWellFormed = true := by decide +kernel

/-- T13's bytes with the last canonical byte after the second, and with none that can be fetched. -/
def cutOff (n : Nat) : State :=
  { State.reset with pc := 0x800000000000#64 - BitVec.ofNat 64 n, mem := place (0x800000000000 - n) [0x62, 0xF2, 0x7D, 0x48, 0x18, 0xCA] [] }

theorem witness_FetchStopsWhereAByteCannotBeFetched :
    codeBytes (cutOff 2) = (encode (.evexSsZmm [] 1#5 ⟨0#3, false⟩ (.reg 2#5))).take 2 ∧
    codeBytes (cutOff 0) = (encode (.evexSsZmm [] 1#5 ⟨0#3, false⟩ (.reg 2#5))).take 0 ∧
    (match (cutOff 2).fetchByte ((cutOff 2).pc + 2#64) with | .error stop => stop == .fault .gp | .ok _ => false) = true ∧
    faultOf (step (cutOff 2)) = some .gp := by decide +kernel

/-- T1's bytes decode in 64-bit mode, and are the encoding of their instruction. -/
theorem witness_StepRunsDecodedInstruction :
    decode (codeBytes (start [0xC4, 0xE2, 0x79, 0x18, 0x08] 0 [])) = .instr (.vexSsXmmMem [] 1#4 atRax) (List.replicate 10 0#8) := by
  decide +kernel

theorem witness_StepRunsEncodedInstruction :
    codeBytes (start [0xC4, 0xE2, 0x79, 0x18, 0x08] 0 []) = encode (.vexSsXmmMem [] 1#4 atRax) ++ List.replicate 10 0#8 ∧
    (Instr.vexSsXmmMem [] 1#4 atRax).wellFormed = true ∧
    codeBytes (v86Mode (start [0xC4, 0x62, 0x79, 0x18, 0x08] 0 [])) = encode (.vexSsXmmMem [] 9#4 atRax) ++ List.replicate 10 0#8 ∧
    extendsRX (.vexSsXmmMem [] 1#4 atRax) = false ∧ extendsRX (.vexSsXmmMem [] 9#4 atRax) = true ∧
    extendsRX (.vexSsXmmMem [] 1#4 (.sib 0#2 8#4 0#4 .absent)) = true ∧
    ({ loaded with csL := false }).mode.rule = .refused := by decide +kernel

/-- Instructions of exactly 15 bytes in both schemes. -/
theorem witness_DecodeOfEncodeIsIdentity :
    (Instr.vexSdYmmMem [.fs, .gs, .addr32, .es] 12#4 (.sib 2#2 14#4 13#4 (.disp32 0x100#32))).length = 14 ∧
    (Instr.evexF64x4Zmm [.fs, .gs, .addr32, .es] 31#5 k1z (.sibNoBase 3#2 15#4 0xFFFFFFFF#32)).length = 15 ∧
    (Instr.evexF64x4Zmm [.fs, .gs, .addr32, .es] 31#5 k1z (.sibNoBase 3#2 15#4 0xFFFFFFFF#32)).wellFormed = true := by decide

theorem witness_DecodedInstructionsAreWellFormed :
    decode [0x67, 0xC4, 0xE2, 0x79, 0x18, 0x08, 0x90] = .instr (.vexSsXmmMem [.addr32] 1#4 atRax) [0x90] := by decide

/-- T61 and T2: a fault and a refusal that MaskDoesNotSuppressFaults carries to every other mask. -/
theorem witness_MaskDoesNotSuppressFaults :
    faultOf (exec (.evexSsYmm [] 1#5 ⟨1#3, false⟩ (.mem atRax)) (withRegion absentPage loaded)) = some (.pf 0x1000#64 0#32) ∧
    refusalOf (exec (.evexSsYmm [] 1#5 ⟨1#3, false⟩ (.mem atRax)) (withRegion devicePage loaded)) = some .deviceMemory := by
  decide +kernel

/-- A form that completes, by exec and by step: FrameOfEveryForm, ProgramTextIsConstant, StraightLineRuns, InvariantKeptByEveryStep, OnlyEnabledStatesRun. -/
theorem witness_FrameOfEveryForm : isNext (exec (.evexSsYmm [] 1#5 ⟨1#3, false⟩ (.mem atRax)) loaded) = true := by decide +kernel

/-- Program P1 of the spec, first two steps. -/
theorem witness_ProgramTextIsConstant : isNext (Host.Core.run core 2
    (withX 7 0x2000#64 (start [0xC4, 0xE2, 0x7D, 0x18, 0x07, 0x62, 0xF2, 0x7D, 0x48, 0x18, 0xC8] 0x2000 [0, 0, 0xC0, 0x3F]))) = true := by
  decide +kernel

theorem witness_StraightLineRuns : isNext (step t2) = true ∧
    isNext (step (start (List.replicate 10 0x2E#8 ++ [0xC4, 0xE2, 0x7D, 0x18, 0xCA]) 0 [])) = true ∧
    loaded.mem.wf = true ∧ loaded.cfg.regions = [] := by decide +kernel

/-- The first two instructions of program P1 of the spec, 11 bytes: final just past them, not before. -/
theorem test_run_final :
    let s := (withX 7 0x1000#64 loaded).launch 0x400000#64 [0xC4, 0xE2, 0x7D, 0x18, 0x07, 0x62, 0xF2, 0x7D, 0x48, 0x18, 0xC8]
    (match runProgram 0x400000#64 11 2 s with | .final t => t.pc == 0x40000B#64 | _ => false) = true ∧
    (match runProgram 0x400000#64 11 1 s with | .running t => t.pc == 0x400005#64 | _ => false) = true := by decide +kernel

/-- The first two instructions of program P4 of the spec: the second raises #UD, with pc at its first byte. -/
theorem test_run_faulted :
    let s := (withX 7 0x1000#64 loaded).launch 0x400000#64 [0xC4, 0xE2, 0x7D, 0x18, 0x07, 0xC4, 0xE2, 0x7D, 0x1A, 0xC8]
    (match runProgram 0x400000#64 15 2 s with | .faulted f t => f == .ud && t.pc == 0x400005#64 | _ => false) = true := by
  decide +kernel

theorem witness_InvariantKeptByEveryStep : (t2.mem.wf = true ∧ 1 ≤ t2.cfg.vaBits ∧ t2.cfg.vaBits ≤ 64) ∧ t2.mode = .bits64 ∧
    isNext (step t2) = true := by decide +kernel

theorem witness_OnlyEnabledStatesRun : isNext (step t2) = true := by decide +kernel

/-- T5's source register with every unread bit set to one. -/
theorem witness_UnreadSourceBitsDoNotMatter : sourceOf (.vexSsXmmReg [] 1#4 2#4) = .reg 2#5 ∧
    2#5 ≠ destination (.vexSsXmmReg [] 1#4 2#4) ∧
    (∀ b < 8 * operandBytes (.vexSsXmmReg [] 1#4 2#4),
      ((BitVec.allOnes 512 <<< 32) ||| 0x7FC00001#512).getLsbD b = ((loaded.setV 2#5 0x7FC00001#512).readV 2#5).getLsbD b) ∧
    isNext (exec (.vexSsXmmReg [] 1#4 2#4) (loaded.setV 2#5 0x7FC00001#512)) = true := by decide +kernel

/-- T14's mask against 0001H: the 16 bits that count agree. -/
theorem witness_MaskBitsAboveTheElementsDoNotMatter :
    (∀ j < maskedElements (.evexSsZmm [] 17#5 ⟨7#3, false⟩ (.reg 18#5)),
      (0xFFFFFFFFFFFF0001#64).getLsbD j = ((withK 7 1#64 loaded).readK 7#3).getLsbD j) ∧
    isNext (exec (.evexSsZmm [] 17#5 ⟨7#3, false⟩ (.reg 18#5)) (withK 7 1#64 loaded)) = true := by decide +kernel

/-- Flags that differ from the launch value in every bit but AC and VM. -/
theorem witness_FloatingPointStateIsNotRead : (0xFFFFFFFFFFF9FFFD#64).getLsbD 17 = loaded.rflags.getLsbD 17 ∧
    (0xFFFFFFFFFFF9FFFD#64).getLsbD 18 = loaded.rflags.getLsbD 18 := by decide

/-- Memory that differs in the byte just after a 4-byte operand. -/
theorem witness_OnlyTheOperandBytesAreRead : operandAddress (.vexSsXmmMem [] 1#4 atRax) loaded = some (.ds, 0x1000#64) ∧
    (∀ k < 4, (loaded.setMem (loaded.mem.write 0x1004 0xFF#8)).byteAt .read (byteAddress 0x1000#64 k) =
      loaded.byteAt .read (byteAddress 0x1000#64 k)) ∧
    isNext (exec (.vexSsXmmMem [] 1#4 atRax) loaded) = true := by decide +kernel

/-- The two encodings of one form on one register and on one address. -/
theorem witness_VexAndEvexAgreeUnmasked :
    operandAddress (.vexSsXmmMem [] 1#4 atRax) loaded = operandAddress (.evexSsXmm [] 1#5 ⟨0#3, false⟩ (.mem atRax)) loaded ∧
    (operandAddress (.vexSsXmmMem [] 1#4 atRax) loaded).isSome = true ∧
    sourceOf (.vexSdYmmReg [] 1#4 9#4) = sourceOf (.evexSdYmm [] 1#5 ⟨0#3, false⟩ (.reg 9#5)) ∧
    isNext (exec (.vexSsXmmMem [] 1#4 atRax) loaded) = true ∧
    isNext (exec (.evexSsXmm [] 1#5 ⟨0#3, false⟩ (.mem atRax)) loaded) = true := by decide +kernel

theorem witness_F32x4UnmaskedIsF128 :
    operandAddress (.evexF32x4Ymm [] 1#5 ⟨0#3, false⟩ atRax) loaded = operandAddress (.vexF128YmmMem [] 1#4 atRax) loaded ∧
    isNext (exec (.vexF128YmmMem [] 1#4 atRax) loaded) = true ∧
    isNext (exec (.evexF32x4Ymm [] 1#5 ⟨0#3, false⟩ atRax) loaded) = true := by decide +kernel

/-- T17 with KL = 8: mask bit 8 is 1 and does not count. -/
theorem witness_AllZeroMergingMaskIsNotANop :
    (∀ j < maskedElements (.evexSsYmm [] 1#5 ⟨1#3, false⟩ (.mem atRax)), ((withK 1 0x100#64 loaded).readK 1#3).getLsbD j = false) ∧
    isNext (exec (.evexSsYmm [] 1#5 ⟨1#3, false⟩ (.mem atRax)) (withK 1 0x100#64 loaded)) = true := by decide +kernel

/-- 64-bit address size, index R12 (which field 100b with X extends to, and which is a real index) and no index. -/
theorem witness_EffectiveAddressCases : addressSize32 [.fs, .ds] = false ∧ (12#4 ≠ 4#4) ∧
    loaded.effectiveAddress [] 0#64 1 (.sib 0#2 4#4 0#4 .absent) = 0x1000#64 ∧
    (withX 12 2#64 loaded).effectiveAddress [] 0#64 1 (.sib 3#2 12#4 0#4 (.disp8 0xFF#8)) = 0x100F#64 := by decide +kernel

/-- 67H: the sum wraps at 32 bits. -/
theorem witness_AddressSize32UsesLowHalves : addressSize32 [.fs, .addr32] = true ∧
    (withX 0 0xFFFFFFFFFFFFFFFF#64 loaded).effectiveAddress [.addr32] 0#64 1 (.base 0#4 (.disp8 2#8)) = 1#64 := by decide +kernel

/-- An override without effect after the one that counts. -/
theorem witness_SegmentOfAMemoryOperand :
    ({ loaded with gsBase := 0xFFFFFFFFFFFFF800#64 }).linearAddress [.gs] 0#64 1 atRax = 0x800#64 ∧ (∀ p ∈ [LegacyPrefix.es, .addr32], p ≠ .fs ∧ p ≠ .gs) ∧
    segmentOf [.fs, .gs, .es] atRax = .gs ∧ segmentOf [.ds] (.base 5#4 (.disp8 0#8)) = .ss ∧
    segmentOf [] (.base 13#4 (.disp8 0#8)) = .ds := by decide +kernel

/-- 30_encoding.md R73 with T31's bytes: disp8 80H times 4 is -512, FFH times 16 is -16, 08H under VEX is 8, a disp32 of 5 stays 5. -/
theorem test_displacement : dispValue 4 (.disp8 0x80#8) = 0xFFFFFFFFFFFFFE00#64 ∧
    dispValue 16 (.disp8 0xFF#8) = 0xFFFFFFFFFFFFFFF0#64 ∧ dispValue 1 (.disp8 8#8) = 8#64 ∧
    dispValue 4 (.disp32 5#32) = 5#64 ∧ dispValue 4 .absent = 0#64 := by decide

/-- A page that is not present, and a supervisor page at CPL 3. -/
theorem witness_PageFaultCodeOfARead : (withRegion absentPage loaded).translate .read 0x1FFF#64 = .pageFault 0#32 ∧
    (withRegion absentPage loaded).translate .read 0x2000#64 = .mapped 0x2000#64 false ∧
    ({ withRegion ⟨0x1000#64, 4096, true, false, true, false, 0x1000#64⟩ loaded with cpl := 3#2 }).translate .read 0x1000#64 =
      .pageFault 5#32 := by decide +kernel

end Sys2Proof.Tests
end

section
/-! SUPPORT. The broadcasts of 00_scope.md R13 and R14, read bit by bit and element by element, for any element size and vector length that fit the register. -/

namespace Sys2Proof.Machine

open Sys2Proof.Safety

/-- With whole elements that fit the register, every bit of `BroadcastVEX` below the vector length is a bit of the source value, and the others are 0 (00_scope.md R13). -/
theorem broadcastVex_getLsbD {esize vl : Nat} (he : 0 < esize) (hd : esize ∣ vl) (hvl : vl ≤ 512) (src : BitVec esize)
    (b : Nat) : (broadcastVex esize vl src).getLsbD b = (decide (b < vl) && src.getLsbD (b % esize)) := by
  have hfit : b < vl → b < 512 := fun hb => Nat.lt_of_lt_of_le hb hvl
  rw [broadcastVex, assemble_getLsbD 512 esize _ _ b he, Nat.div_mul_cancel hd]
  simp only [← Bool.decide_and, and_iff_left_of_imp hfit]

section Evex

variable {w esize t vl : Nat} (old : VReg) (src : BitVec w) (nomask : Bool) (m : Word64) (zeroing : Bool)

/-- Element `j` of `BroadcastEVEX`: the tuple element, zero or the old element (00_scope.md R14). -/
theorem lane_broadcastEvex (hvl : vl ≤ 512) {j : Nat} (hj : j < vl / esize) :
    lane esize j (broadcastEvex old src esize t vl nomask m zeroing) =
      if nomask = true ∨ m.getLsbD j = true then src.extractLsb' (j % t * esize) esize
      else if zeroing = true then 0#esize else lane esize j old := by
  have hfit : vl / esize * esize ≤ 512 := (Nat.div_mul_le_self vl esize).trans hvl
  rw [lane, broadcastEvex, assemble_element 512 esize _ _ j hj hfit]
  simp only [Bool.or_eq_true, lane]

/-- `BroadcastEVEX` is 0 from the vector length up (00_scope.md R14). -/
theorem broadcastEvex_above (he : 0 < esize) {b : Nat} (hb : vl ≤ b) :
    (broadcastEvex old src esize t vl nomask m zeroing).getLsbD b = false :=
  assemble_above 512 esize _ _ b he ((Nat.div_mul_le_self vl esize).trans hb)

end Evex

/-- Settles O46: each element size divides each vector length, and both lengths fit the register. -/
theorem broadcastVexElements : Obligations.BroadcastVexElements := by
  intro esize vl hesize hlen v b
  have he : 0 < esize := by omega
  have hd : esize ∣ vl := by
    rcases hesize with rfl | rfl | rfl <;> rcases hlen with rfl | rfl <;> decide
  have hvl : vl ≤ 512 := by omega
  exact broadcastVex_getLsbD he hd hvl v b

/-- Settles O47: the elements below the vector length by `lane_broadcastEvex`, the bits above it by `broadcastEvex_above`. -/
theorem broadcastEvexElements : Obligations.BroadcastEvexElements := by
  intro esize n vl hesize _ hlen old v nomask m zeroing
  have he : 0 < esize := by omega
  have hvl : vl ≤ 512 := by omega
  exact ⟨fun j hj => lane_broadcastEvex old v nomask m zeroing hvl hj,
    fun b hb => broadcastEvex_above old v nomask m zeroing he hb⟩

end Sys2Proof.Machine
end

section
/-! SUPPORT. VEX bytes inside the family's space as the decoder answers them, and the register-source forms by their enabling conditions (30_encoding.md R77, R79). -/

namespace Sys2Proof.Machine

open Sys2Proof.Safety

/-! ## VEX bytes inside the family's space -/

/-- With no row for the bytes the answer is #UD. -/
@[simp] theorem answer_none (bad reserved : Bool) (rest : List Byte) : answer bad reserved none rest = .undefinedOpcode := by
  cases bad <;> cases reserved <;> rfl

/-- Opcode 1AH has no VEX row with a register source (30_encoding.md R79). -/
theorem vexRow_1A_reg (l : Bool) (ps : List LegacyPrefix) (d : BitVec 4) (b : Bool) (rm : BitVec 3) :
    vexRow 0x1A#8 l ps d b (.reg rm) = none := rfl

/-- ModRM.mod = 11b makes the second operand a register. -/
theorem takeModRM_registerOperand {x b : Bool} {operand rest : List Byte} {reg : BitVec 3} {o : RmOperand}
    (h : takeModRM x b operand = some (reg, o, rest)) (hr : registerOperand operand = true) : ∃ rm, o = .reg rm := by
  cases operand with
  | nil => cases hr
  | cons m bs =>
    have hmd : m.extractLsb' 6 2 = 3#2 := beq_iff_eq.1 hr
    simp only [takeModRM, hmd, if_true, Option.some.injEq, Prod.mk.injEq] at h
    exact ⟨_, h.2.1.symm⟩

/-- VEX bytes inside the family's space: the operand bytes are read, then the reserved fields and the row decide (30_encoding.md R77). -/
theorem decodeVex_of_vexSpace (ps : List LegacyPrefix) (bad : Bool) {b1 b2 op : Byte} {operand : List Byte}
    (h : VexSpace b1 b2 op operand) :
    ∃ reg o rest, takeModRM (!b1.getLsbD 6) (!b1.getLsbD 5) operand = some (reg, o, rest) ∧
      decodeVex true ps bad (b1 :: b2 :: op :: operand) =
        answer bad (b2.extractLsb' 3 4 != 0xF#4 || b2.getLsbD 7)
          (vexRow op (b2.getLsbD 2) ps (BitVec.cons (!b1.getLsbD 7) reg) (!b1.getLsbD 5) o) rest := by
  obtain ⟨hmap, hpp, hop, hsome⟩ := h
  obtain ⟨⟨reg, o, rest⟩, htake⟩ := Option.isSome_iff_exists.1 hsome
  have hop' : ¬(op ≠ 0x18#8 ∧ op ≠ 0x19#8 ∧ op ≠ 0x1A#8) := by tauto
  refine ⟨reg, o, rest, htake, ?_⟩
  simp only [decodeVex, reduceCtorEq, false_and, if_false, hmap, hpp, hop', ne_eq, not_true_eq_false, Bool.true_and, htake]

/-- Opcode 1AH with ModRM.mod = 11b raises #UD, whatever VEX byte 2 holds (30_encoding.md R79). -/
theorem vexBytesRaiseUd_1A_reg (b2 : Byte) : VexBytesRaiseUd b2 0x1A#8 true := by
  intro s ps b1 operand hm hc hsp hreg
  obtain ⟨reg, o, rest, htake, hdec⟩ := decodeVex_of_vexSpace ps false hsp
  obtain ⟨rm, rfl⟩ := takeModRM_registerOperand htake (hreg rfl)
  have hud : decode (codeBytes s) = .undefinedOpcode := by
    rw [hc, decode, decodeIn_vex, hdec, vexRow_1A_reg, answer_none]
  rw [step_of_decode s hm, hud]

/-! ## Enabling conditions of a register-source form -/

/-- In 64-bit mode a missing feature flag of the row raises #UD (60_exceptions.md R143). -/
theorem exec_ud_of_missing_feature {i : Instr} {s : State} {f : Feature} (hm : s.mode = .bits64) (hf : f ∈ needs i)
    (hc : hasFeature s.cfg f = false) : exec i s = .fault .ud := by
  obtain ⟨value, hv⟩ := exec_form i s
  have hfeat : s.hasFeatures (needs i) = false := by
    rw [Bool.eq_false_iff, ne_eq, s.hasFeatures_iff]
    intro hall
    exact Bool.eq_false_iff.1 hc (hall f hf)
  rw [hv]
  exact broadcastForm_disabled _ _ _ _ _ _ _ _ _ _ _ (checkEnabled_ud _ _ s hm (by rw [hfeat, Bool.and_false]))

/-- An enabled form with a register source completes: a register can always be read. -/
theorem exec_next_of_register_source {i : Instr} {s : State} {r : BitVec 5} (hs : sourceOf i = .reg r)
    (hr : Ready (scheme i) (needs i) s) : ∃ t, exec i s = .next t := by
  obtain ⟨value, hv⟩ := exec_form i s
  rw [hs] at hv
  exact ⟨_, hv.trans ((broadcastForm_next_iff ..).2 ⟨(checkEnabled_ok_iff ..).2 hr, _, rfl, rfl⟩)⟩

/-- A VEX form that needs AVX2 alone and has a register source, in a state with the vector state enabled: #UD exactly without AVX2, completion with it. -/
theorem exec_vex_register_avx2 {i : Instr} {s : State} {r : BitVec 5} (hscheme : scheme i = .vex) (hneeds : needs i = [.avx2])
    (hsrc : sourceOf i = .reg r) (hm : s.mode = .bits64) (hos : s.osxsave = true) (hx : s.xcr0Avx = true) (hts : s.ts = false) :
    (exec i s = .fault .ud ↔ hasFeature s.cfg .avx2 = false) ∧ (hasFeature s.cfg .avx2 = true → ∃ t, exec i s = .next t) := by
  have hnext : hasFeature s.cfg .avx2 = true → ∃ t, exec i s = .next t := by
    intro h
    refine exec_next_of_register_source hsrc ⟨hm, hos, hx, ?_, ?_, hts⟩
    · simp [hscheme]
    · simpa [hneeds] using h
  refine ⟨⟨fun hud => ?_, exec_ud_of_missing_feature hm (by simp [hneeds])⟩, hnext⟩
  by_contra h
  obtain ⟨t, ht⟩ := hnext (by simpa using h)
  rw [hud] at ht
  cases ht

/-- Settles O28: opcode 1AH by `vexBytesRaiseUd_1A_reg`, each of the three register forms by `exec_vex_register_avx2`. -/
theorem vexRegisterSourceRule : Obligations.VexRegisterSourceRule := by
  refine ⟨vexBytesRaiseUd_1A_reg, fun ps d r s hm hos hx hts i hi => ?_⟩
  rcases hi with rfl | rfl | rfl
  · exact exec_vex_register_avx2 rfl rfl rfl hm hos hx hts
  · exact exec_vex_register_avx2 rfl rfl rfl hm hos hx hts
  · exact exec_vex_register_avx2 rfl rfl rfl hm hos hx hts

end Sys2Proof.Machine
end

section
/-! SUPPORT. VEX and EVEX bytes inside the family's space that raise #UD, by a reserved field or a missing row, and the encoded EVEX forms with a source operand read back (30_encoding.md R77 to R83, 60_exceptions.md R141, R142). -/

namespace Sys2Proof.Machine

open Sys2Proof.Safety

/-! ## Bytes that raise #UD -/

/-- The ways an instruction that was read whole can be #UD. -/
theorem answer_undefinedOpcode_iff (bad reserved : Bool) (row : Option Instr) (rest : List Byte) :
    answer bad reserved row rest = .undefinedOpcode ↔ bad = true ∨ reserved = true ∨ row = none := by
  cases row with
  | none => simp
  | some i => cases bad <;> cases reserved <;> simp [answer]

/-- EVEX bytes inside the family's space whose operand bytes are read: the reserved fields and the row decide (30_encoding.md R77). -/
theorem decodeEvex_of_take (ps : List LegacyPrefix) (bad : Bool) {p0 p1 p2 op : Byte} {operand rest : List Byte}
    {reg : BitVec 3} {o : RmOperand} (hmap : p0.extractLsb' 0 4 = 2#4) (hpp : p1.extractLsb' 0 2 = 1#2)
    (hop : op = 0x18#8 ∨ op = 0x19#8 ∨ op = 0x1A#8 ∨ op = 0x1B#8)
    (htake : takeModRM (!p0.getLsbD 6) (!p0.getLsbD 5) operand = some (reg, o, rest)) :
    decodeEvex ps bad (p0 :: p1 :: p2 :: op :: operand) =
      answer bad (evexReserved p1 p2)
        (evexRow op (p1.getLsbD 7) (p2.extractLsb' 5 2) ps
          (BitVec.cons (!p0.getLsbD 4) (BitVec.cons (!p0.getLsbD 7) reg)) ⟨p2.extractLsb' 0 3, p2.getLsbD 7⟩
          (!p0.getLsbD 6) (!p0.getLsbD 5) o) rest := by
  have hop' : ¬(op ≠ 0x18#8 ∧ op ≠ 0x19#8 ∧ op ≠ 0x1A#8 ∧ op ≠ 0x1B#8) := by tauto
  simp only [decodeEvex, hmap, hpp, hop', ne_eq, not_true_eq_false, if_false, htake]

section Bytes

variable {s : State} {ps : List LegacyPrefix} {op : Byte} {operand : List Byte}

/-- VEX bytes inside the family's space raise #UD when vvvv or W is reserved, or when no operand gives the opcode and L a row. -/
theorem step_ud_of_vexSpace {b1 b2 : Byte} (hm : s.mode = .bits64)
    (hc : codeBytes s = ps.map LegacyPrefix.byte ++ 0xC4#8 :: b1 :: b2 :: op :: operand) (hsp : VexSpace b1 b2 op operand)
    (hud : (b2.extractLsb' 3 4 != 0xF#4 || b2.getLsbD 7) = true ∨ ∀ d b o, vexRow op (b2.getLsbD 2) ps d b o = none) :
    step s = .fault .ud := by
  obtain ⟨reg, o, rest, -, hdec⟩ := decodeVex_of_vexSpace ps false hsp
  have hdecode : decode (codeBytes s) = .undefinedOpcode := by
    rw [hc, decode, decodeIn_vex, hdec, answer_undefinedOpcode_iff]
    exact .inr (hud.imp_right fun h => h _ _ _)
  rw [step_of_decode s hm, hdecode]

/-- EVEX bytes inside the family's space raise #UD when a fixed field is wrong, or when no operand gives the opcode, W and L'L a row. -/
theorem step_ud_of_evexSpace {p0 p1 p2 : Byte} (hm : s.mode = .bits64)
    (hc : codeBytes s = ps.map LegacyPrefix.byte ++ 0x62#8 :: p0 :: p1 :: p2 :: op :: operand) (hsp : EvexSpace p0 p1 op operand)
    (hud : evexReserved p1 p2 = true ∨ ∀ d k x b o, evexRow op (p1.getLsbD 7) (p2.extractLsb' 5 2) ps d k x b o = none) :
    step s = .fault .ud := by
  obtain ⟨hmap, hpp, hop, hsome⟩ := hsp
  obtain ⟨⟨reg, o, rest⟩, htake⟩ := Option.isSome_iff_exists.1 hsome
  have hdecode : decode (codeBytes s) = .undefinedOpcode := by
    rw [hc, decode, decodeIn_evex, decodeEvex_of_take ps false hmap hpp hop htake, answer_undefinedOpcode_iff]
    exact .inr (hud.imp_right fun h => h _ _ _ _ _)
  rw [step_of_decode s hm, hdecode]

end Bytes

/-- A reserved vvvv is one of the wrong fixed fields of an EVEX encoding. -/
theorem evexReserved_of_vvvv {p1 : Byte} (p2 : Byte) (h : p1.extractLsb' 3 4 ≠ 0xF#4) : evexReserved p1 p2 = true := by
  simp [evexReserved, h]

/-- Settles O26: vvvv is a reserved field of both schemes, and reserved fields raise #UD inside the family's space. -/
theorem reservedVvvvRaisesUd : Obligations.ReservedVvvvRaisesUd := by
  constructor
  · intro s ps b1 b2 op operand hm hc hsp hv
    exact step_ud_of_vexSpace hm hc hsp (.inl (by simp [hv]))
  · intro s ps p0 p1 p2 op operand hm hc hsp hv
    exact step_ud_of_evexSpace hm hc hsp (.inl (evexReserved_of_vvvv p2 hv))

/-! ## Vector lengths a mnemonic does not have -/

/-- Opcodes 19H and 1AH have no VEX row of 128 bits. -/
theorem vexRow_128_none {op : Byte} (hop : op = 0x19#8 ∨ op = 0x1A#8) (ps : List LegacyPrefix) (d : BitVec 4) (b : Bool)
    (o : RmOperand) : vexRow op false ps d b o = none := by
  rcases hop with rfl | rfl
  · cases o <;> rfl
  · cases o <;> rfl

/-- Opcode 19H has no EVEX row of 128 bits. -/
theorem evexRow_19_128_none (w : Bool) (ps : List LegacyPrefix) (d : BitVec 5) (k : Masking) (x b : Bool) (o : RmOperand) :
    evexRow 0x19#8 w 0#2 ps d k x b o = none := by
  cases o <;> rfl

/-- Opcodes 1AH and 1BH have no EVEX row with a register operand, and none with a memory operand that `evexMemRow` lacks. -/
theorem evexRow_none_of_evexMemRow_none {op : Byte} {w : Bool} {ll : BitVec 2} {ps : List LegacyPrefix} {d : BitVec 5}
    {k : Masking} (hop : op = 0x1A#8 ∨ op = 0x1B#8) (hmem : ∀ m, evexMemRow op w ll ps d k m = none) (x b : Bool)
    (o : RmOperand) : evexRow op w ll ps d k x b o = none := by
  cases o with
  | reg rm => rcases hop with rfl | rfl <;> rfl
  | mem m => rw [← hmem m]; rcases hop with rfl | rfl <;> rfl

/-- VEX.L = 0 raises #UD on an opcode that has no row of 128 bits. -/
theorem vexBytesRaiseUd_128 {b2 op : Byte} (hl : b2.getLsbD 2 = false) (hop : op = 0x19#8 ∨ op = 0x1A#8) :
    VexBytesRaiseUd b2 op false := by
  intro s ps b1 operand hm hc hsp _
  exact step_ud_of_vexSpace hm hc hsp (.inr (by rw [hl]; exact vexRow_128_none hop ps))

/-- An opcode and L'L that no W and no operand give a row raise #UD. -/
theorem evexBytesRaiseUd_of_no_row {op : Byte} {ll : BitVec 2} (h : ∀ w ps d k x b o, evexRow op w ll ps d k x b o = none)
    (p1 : Byte) : EvexBytesRaiseUd p1 op ll false := by
  rintro s ps p0 p2 operand hm hc hsp rfl _
  exact step_ud_of_evexSpace hm hc hsp (.inr (h _ _))

/-! ## Encoded EVEX forms with a register or memory source -/

/-- The fixed fields of an encoded EVEX form hold what they must (30_encoding.md R77 to R82). -/
theorem evexReserved_encoded {k : Masking} {ll : BitVec 2} (w : Bool) (hk : k.wellFormed = true) (hll : ll ≠ 3#2) :
    evexReserved (evexP1 w) (evexP2 k ll) = false := by
  obtain ⟨-, hv, hfix, -⟩ := evexP1_fields w
  obtain ⟨haaa, hv', hb, hll', hz⟩ := evexP2_fields k ll
  have hzero : (k.z && k.aaa == 0#3) = false := by
    simpa only [Masking.wellFormed, Bool.not_eq_true'] using hk
  rw [evexReserved, hv, hfix, haaa, hv', hb, hll', hz, hzero]
  simp [hll]

/-- The operand bytes of a well-formed source read back, and name its row (30_encoding.md R68, R70). -/
theorem takeModRM_source {src : Source} (h : src.wellFormed = true) (reg : BitVec 3) (rest : List Byte) :
    ∃ o, takeModRM src.fields.x src.fields.b (fieldsByte src.fields.md reg src.fields.rm :: (src.fields.tail ++ rest)) =
        some (reg, o, rest) ∧
      ∀ op w ll ps d k, op = 0x18#8 ∨ op = 0x19#8 →
        evexRow op w ll ps d k src.fields.x src.fields.b o = evexSourceRow op w ll ps d k src := by
  cases src with
  | reg r =>
    refine ⟨_, takeModRM_reg _ _ _ _ _, fun op w ll ps d k _ => ?_⟩
    simp [evexRow, Source.fields]
  | mem m =>
    refine ⟨_, takeModRM_mem m reg rest h, fun op w ll ps d k hop => ?_⟩
    simp only [evexRow, hop, if_true]

/-- The encoding of an EVEX form of opcode 18H or 19H decodes to its row and leaves the bytes after it. -/
theorem decode_encodeEvex_source {op : Byte} (hop : op = 0x18#8 ∨ op = 0x19#8) {ll : BitVec 2} (hll : ll ≠ 3#2) {k : Masking}
    (hk : k.wellFormed = true) {src : Source} (hsrc : src.wellFormed = true) (w : Bool) (ps : List LegacyPrefix)
    (d : BitVec 5) (rest : List Byte) :
    decode (encodeEvex ps w ll op d k src.fields ++ rest) = answer false false (evexSourceRow op w ll ps d k src) rest := by
  obtain ⟨hmap, hr, hx, hb, hr'⟩ := evexP0_fields (d.getLsbD 3) src.fields.x src.fields.b (d.getLsbD 4)
  obtain ⟨hpp, -, -, hw⟩ := evexP1_fields w
  obtain ⟨haaa, -, -, hll', hz⟩ := evexP2_fields k ll
  obtain ⟨o, htake, hrow⟩ := takeModRM_source hsrc (d.extractLsb' 0 3) rest
  have hop' : op = 0x18#8 ∨ op = 0x19#8 ∨ op = 0x1A#8 ∨ op = 0x1B#8 := by tauto
  have hd : BitVec.cons (d.getLsbD 4) (BitVec.cons (d.getLsbD 3) (d.extractLsb' 0 3)) = d := cons_low5 d
  simp only [encodeEvex, List.append_assoc, List.cons_append]
  rw [decode, decodeIn_evex, decodeEvex_of_take ps false hmap hpp hop' (by simpa only [hx, hb, Bool.not_not] using htake)]
  simp only [evexReserved_encoded w hk hll, hw, hll', haaa, hz, hr, hr', hx, hb, Bool.not_not, hd, hrow op w ll ps d k hop]

/-- Settles O27: the lengths without a row by `vexRow_128_none` and the EVEX rows, the three lengths of VBROADCASTSS by `decode_encodeEvex_source`. -/
theorem unavailableLengthsRaiseUd : Obligations.UnavailableLengthsRaiseUd := by
  refine ⟨fun b2 hl => ⟨vexBytesRaiseUd_128 hl (.inl rfl), vexBytesRaiseUd_128 hl (.inr rfl)⟩,
    fun p1 => ⟨?_, ?_, ?_, ?_⟩, fun ps d k src rest hwf => ?_⟩
  · exact evexBytesRaiseUd_of_no_row evexRow_19_128_none p1
  · exact evexBytesRaiseUd_of_no_row (fun _ _ _ _ => evexRow_none_of_evexMemRow_none (.inl rfl) fun _ => rfl) p1
  · exact evexBytesRaiseUd_of_no_row (fun _ _ _ _ => evexRow_none_of_evexMemRow_none (.inr rfl) fun _ => rfl) p1
  · exact evexBytesRaiseUd_of_no_row (fun _ _ _ _ => evexRow_none_of_evexMemRow_none (.inr rfl) fun _ => rfl) p1
  · simp only [Instr.wellFormed, Instr.operandsWellFormed, Bool.and_eq_true] at hwf
    obtain ⟨⟨hk, hsrc⟩, -⟩ := hwf
    exact ⟨decode_encodeEvex_source (.inl rfl) (by decide) hk hsrc false ps d rest,
      decode_encodeEvex_source (.inl rfl) (by decide) hk hsrc false ps d rest,
      decode_encodeEvex_source (.inl rfl) (by decide) hk hsrc false ps d rest⟩

end Sys2Proof.Machine
end

section
/-! SUPPORT. An encoded instruction taken apart at its escape: the legacy bytes in front, then the escape and what follows, which decodes to the row it was written from (30_encoding.md R60 to R77). -/

namespace Sys2Proof.Machine

open Sys2Proof.Safety

/-! ## The escape and what follows it -/

/-- What the decoder answers from the escape on, once the bytes in front are read (30_encoding.md R77). -/
def decodeEscape (mode64 : Bool) (ps : List LegacyPrefix) (bad : Bool) : List Byte → Decoded
  | [] => .incomplete
  | e :: bs =>
    if e = 0xC4#8 then decodeVex mode64 ps bad bs
    else if e = 0x62#8 then decodeEvex ps bad bs
    else .notThisFamily

/-- Decoding is reading the bytes in front, then the escape. -/
theorem decodeIn_eq_decodeEscape (mode64 : Bool) (bytes : List Byte) : decodeIn mode64 bytes =
    decodeEscape mode64 (scanFront mode64 bytes).ps (scanFront mode64 bytes).bad (scanFront mode64 bytes).rest := rfl

/-- A VEX form's bytes from the escape on. -/
def vexEscape (l : Bool) (op : Byte) (d : BitVec 4) (f : RmFields) : List Byte :=
  0xC4#8 :: vexByte1 (d.getLsbD 3) f.x f.b :: vexByte2 l :: op :: fieldsByte f.md (d.extractLsb' 0 3) f.rm :: f.tail

/-- An EVEX form's bytes from the escape on. -/
def evexEscape (w : Bool) (ll : BitVec 2) (op : Byte) (d : BitVec 5) (k : Masking) (f : RmFields) : List Byte :=
  0x62#8 :: evexP0 (d.getLsbD 3) f.x f.b (d.getLsbD 4) :: evexP1 w :: evexP2 k ll :: op ::
    fieldsByte f.md (d.extractLsb' 0 3) f.rm :: f.tail

/-- The bytes of an instruction from its escape on. -/
def escapeBytes (i : Instr) : List Byte := (encode i).drop (legacyPrefixes i).length

theorem drop_encodeVex (ps : List LegacyPrefix) (l : Bool) (op : Byte) (d : BitVec 4) (f : RmFields) :
    (encodeVex ps l op d f).drop ps.length = vexEscape l op d f := by
  simp [encodeVex, vexEscape]

theorem drop_encodeEvex (ps : List LegacyPrefix) (w : Bool) (ll : BitVec 2) (op : Byte) (d : BitVec 5) (k : Masking)
    (f : RmFields) : (encodeEvex ps w ll op d k f).drop ps.length = evexEscape w ll op d k f := by
  simp [encodeEvex, evexEscape]

/-- An encoding is the legacy bytes and then the escape's bytes. -/
theorem encode_eq_append (i : Instr) :
    encode i = (legacyPrefixes i).map LegacyPrefix.byte ++ escapeBytes i := by
  cases i with
  | vexSsXmmMem | vexSsYmmMem | vexSdYmmMem | vexF128YmmMem | vexSsXmmReg | vexSsYmmReg | vexSdYmmReg =>
    exact congrArg (_ ++ ·) (drop_encodeVex ..).symm
  | evexSdYmm | evexSdZmm | evexF32x2Ymm | evexF32x2Zmm | evexSsXmm | evexSsYmm | evexSsZmm | evexF32x4Ymm
  | evexF32x4Zmm | evexF64x2Ymm | evexF64x2Zmm | evexF32x8Zmm | evexF64x4Zmm =>
    exact congrArg (_ ++ ·) (drop_encodeEvex ..).symm

/-- The escape is no legacy byte. -/
theorem escapeBytes_eq_cons (i : Instr) (mode64 : Bool) :
    ∃ e bs, escapeBytes i = e :: bs ∧ frontByte mode64 e = .other := by
  cases i with
  | vexSsXmmMem | vexSsYmmMem | vexSdYmmMem | vexF128YmmMem | vexSsXmmReg | vexSsYmmReg | vexSdYmmReg =>
    exact ⟨_, _, drop_encodeVex .., frontByte_vex mode64⟩
  | evexSdYmm | evexSdZmm | evexF32x2Ymm | evexF32x2Zmm | evexSsXmm | evexSsYmm | evexSsZmm | evexF32x4Ymm
  | evexF32x4Zmm | evexF64x2Ymm | evexF64x2Zmm | evexF32x8Zmm | evexF64x4Zmm =>
    exact ⟨_, _, drop_encodeEvex .., frontByte_evex mode64⟩

/-- The allowed bytes in front of an escape are handed to it in order. -/
theorem decodeIn_legacy_append_escapeBytes (mode64 : Bool) (ps : List LegacyPrefix) (i : Instr) (rest : List Byte) :
    decodeIn mode64 (ps.map LegacyPrefix.byte ++ (escapeBytes i ++ rest)) =
      decodeEscape mode64 ps false (escapeBytes i ++ rest) := by
  obtain ⟨e, bs, he, hother⟩ := escapeBytes_eq_cons i mode64
  rw [he, List.cons_append, decodeIn_eq_decodeEscape, scanFront_bytes mode64 ps e _ hother]

/-! ## The escape's bytes decode to their row -/

/-- VEX bytes inside the family's space whose operand bytes are read, in 64-bit mode or with the inverted R and X that another mode asks for: the reserved fields and the row decide (30_encoding.md R63, R77). -/
theorem decodeVex_of_take {mode64 : Bool} (ps : List LegacyPrefix) (bad : Bool) {b1 b2 op : Byte} {operand rest : List Byte}
    {reg : BitVec 3} {o : RmOperand} (hmode : mode64 = false → b1.extractLsb' 6 2 = 3#2) (hmap : b1.extractLsb' 0 5 = 2#5)
    (hpp : b2.extractLsb' 0 2 = 1#2) (hop : op = 0x18#8 ∨ op = 0x19#8 ∨ op = 0x1A#8)
    (htake : takeModRM (!b1.getLsbD 6) (mode64 && !b1.getLsbD 5) operand = some (reg, o, rest)) :
    decodeVex mode64 ps bad (b1 :: b2 :: op :: operand) =
      answer bad (b2.extractLsb' 3 4 != 0xF#4 || b2.getLsbD 7)
        (vexRow op (b2.getLsbD 2) ps (BitVec.cons (!b1.getLsbD 7) reg) (mode64 && !b1.getLsbD 5) o) rest := by
  have hop' : ¬(op ≠ 0x18#8 ∧ op ≠ 0x19#8 ∧ op ≠ 0x1A#8) := by tauto
  have hmode' : ¬(mode64 = false ∧ b1.extractLsb' 6 2 ≠ 3#2) := by tauto
  simp only [decodeVex, hmode', hmap, hpp, hop', ne_eq, not_true_eq_false, if_false, htake]

/-- Encoded VEX bytes are answered by the row of their opcode, length and operand. -/
theorem decodeEscape_vexEscape (ps : List LegacyPrefix) (bad l : Bool) {op : Byte}
    (hop : op = 0x18#8 ∨ op = 0x19#8 ∨ op = 0x1A#8) (d : BitVec 4) {f : RmFields} {o : RmOperand} {rest : List Byte}
    (htake : takeModRM f.x f.b (fieldsByte f.md (d.extractLsb' 0 3) f.rm :: (f.tail ++ rest)) =
      some (d.extractLsb' 0 3, o, rest)) :
    decodeEscape true ps bad (vexEscape l op d f ++ rest) = answer bad false (vexRow op l ps d f.b o) rest := by
  obtain ⟨hmap, hr, hx, hb⟩ := vexByte1_fields (d.getLsbD 3) f.x f.b
  obtain ⟨hpp, hv, hw, hl⟩ := vexByte2_fields l
  have hd : BitVec.cons (d.getLsbD 3) (d.extractLsb' 0 3) = d := cons_low4 d
  simp only [vexEscape, List.cons_append, decodeEscape, if_true]
  rw [decodeVex_of_take ps bad (by simp) hmap hpp hop (by simpa only [hx, hb, Bool.not_not, Bool.true_and] using htake)]
  simp only [hv, hw, hl, hr, hb, Bool.not_not, Bool.true_and, hd, bne_self_eq_false, Bool.or_self]

/-- Encoded EVEX bytes are answered by the row of their opcode, W, length and operand, in every mode. -/
theorem decodeEscape_evexEscape (mode64 : Bool) (ps : List LegacyPrefix) (bad w : Bool) {ll : BitVec 2} (hll : ll ≠ 3#2)
    {op : Byte} (hop : op = 0x18#8 ∨ op = 0x19#8 ∨ op = 0x1A#8 ∨ op = 0x1B#8) (d : BitVec 5) {k : Masking}
    (hk : k.wellFormed = true) {f : RmFields} {o : RmOperand} {rest : List Byte}
    (htake : takeModRM f.x f.b (fieldsByte f.md (d.extractLsb' 0 3) f.rm :: (f.tail ++ rest)) =
      some (d.extractLsb' 0 3, o, rest)) :
    decodeEscape mode64 ps bad (evexEscape w ll op d k f ++ rest) =
      answer bad false (evexRow op w ll ps d k f.x f.b o) rest := by
  obtain ⟨hmap, hr, hx, hb, hr'⟩ := evexP0_fields (d.getLsbD 3) f.x f.b (d.getLsbD 4)
  obtain ⟨hpp, -, -, hw⟩ := evexP1_fields w
  obtain ⟨haaa, -, -, hll', hz⟩ := evexP2_fields k ll
  have hd : BitVec.cons (d.getLsbD 4) (BitVec.cons (d.getLsbD 3) (d.extractLsb' 0 3)) = d := cons_low5 d
  simp only [evexEscape, List.cons_append, decodeEscape, if_true, show (0x62#8 = 0xC4#8) = False by decide, if_false]
  rw [decodeEvex_of_take ps bad hmap hpp hop (by simpa only [hx, hb, Bool.not_not] using htake)]
  simp only [evexReserved_encoded w hk hll, hw, hll', haaa, hz, hr, hr', hx, hb, Bool.not_not, hd]

/-- The escape's bytes of an instruction with expressible operands are read whole, and after its own legacy bytes they are its row. -/
theorem decodeEscape_escapeBytes {i : Instr} (hwf : i.operandsWellFormed = true) (ps : List LegacyPrefix) (bad : Bool)
    (rest : List Byte) : ∃ row, decodeEscape true ps bad (escapeBytes i ++ rest) = answer bad false row rest ∧
      (ps = legacyPrefixes i → row = some i) := by
  cases i with
  | vexSsXmmMem _ d m | vexSsYmmMem _ d m | vexSdYmmMem _ d m | vexF128YmmMem _ d m =>
    rw [escapeBytes, encode, legacyPrefixes, drop_encodeVex]
    exact ⟨_, decodeEscape_vexEscape ps bad _ (by decide) d (takeModRM_mem m _ rest hwf), by rintro rfl; rfl⟩
  | vexSsXmmReg _ d r | vexSsYmmReg _ d r | vexSdYmmReg _ d r =>
    rw [escapeBytes, encode, legacyPrefixes, drop_encodeVex]
    refine ⟨_, decodeEscape_vexEscape ps bad _ (by decide) d (takeModRM_reg _ _ _ _ rest), ?_⟩
    rintro rfl
    simp [vexRow, vexRegFields]
  | evexSdYmm _ d k src | evexSdZmm _ d k src | evexF32x2Ymm _ d k src | evexF32x2Zmm _ d k src | evexSsXmm _ d k src
  | evexSsYmm _ d k src | evexSsZmm _ d k src =>
    obtain ⟨hk, hsrc⟩ := Bool.and_eq_true_iff.1 hwf
    obtain ⟨o, htake, hrow⟩ := takeModRM_source hsrc (d.extractLsb' 0 3) rest
    rw [escapeBytes, encode, legacyPrefixes, drop_encodeEvex]
    refine ⟨_, decodeEscape_evexEscape true ps bad _ (by decide) (by decide) d hk htake, ?_⟩
    rintro rfl
    exact hrow _ _ _ _ _ _ (by decide)
  | evexF32x4Ymm _ d k m | evexF32x4Zmm _ d k m | evexF64x2Ymm _ d k m | evexF64x2Zmm _ d k m | evexF32x8Zmm _ d k m
  | evexF64x4Zmm _ d k m =>
    obtain ⟨hk, hm⟩ := Bool.and_eq_true_iff.1 hwf
    rw [escapeBytes, encode, legacyPrefixes, drop_encodeEvex]
    exact ⟨_, decodeEscape_evexEscape true ps bad _ (by decide) (by decide) d hk (takeModRM_mem m _ rest hm),
      by rintro rfl; rfl⟩

/-- An instruction with expressible operands decodes from its encoding, whatever its length. -/
theorem decode_encode {i : Instr} (hwf : i.operandsWellFormed = true) (rest : List Byte) :
    decode (encode i ++ rest) = .instr i rest := by
  obtain ⟨row, hdec, hrow⟩ := decodeEscape_escapeBytes hwf (legacyPrefixes i) false rest
  rw [encode_eq_append, List.append_assoc, decode, decodeIn_legacy_append_escapeBytes, hdec, hrow rfl]
  rfl

/-- A well-formed instruction has expressible operands and at most 15 bytes. -/
theorem wellFormed_iff (i : Instr) :
    i.wellFormed = true ↔ i.operandsWellFormed = true ∧ i.length ≤ maxLength := by
  simp [Instr.wellFormed]

/-- Settles O23: the length limit is not needed, the operands' shape is. -/
theorem decodeOfEncodeIsIdentity : Obligations.DecodeOfEncodeIsIdentity :=
  fun i rest hwf => decode_encode ((wellFormed_iff i).1 hwf).1 rest

/-- Settles O25: each of the four words is evaluated. -/
theorem specWordsDecode : Obligations.SpecWordsDecode := by
  unfold Obligations.SpecWordsDecode
  decide

end Sys2Proof.Machine
end

section
/-! SUPPORT. What a step, and a run, leave as it was: everything but the vector registers and `pc` (10_state.md R32, R34). -/

namespace Sys2Proof.Machine

open Sys2Proof.Safety

/-- A completed instruction changes its destination and `pc` only. -/
theorem exec_frame {i : Instr} {s t : State} (h : exec i s = .next t) :
    Frame (destination i) s t ∧ t.pc = nextPc s i := by
  obtain ⟨-, value, rfl⟩ := exec_next i s t h
  exact ⟨retire_frame s _ value _, rfl⟩

/-- A completed step changes vector registers and `pc` only. -/
theorem step_sameButVectorsAndPc {s t : State} (h : step s = .next t) : SameButVectorsAndPc s t := by
  obtain ⟨i, -, hi⟩ := step_next s t h
  obtain ⟨-, value, rfl⟩ := exec_next i s t hi
  simp [SameButVectorsAndPc]

theorem sameButVectorsAndPc_refl (s : State) : SameButVectorsAndPc s s := by simp [SameButVectorsAndPc]

theorem sameButVectorsAndPc_trans {s t u : State} (h : SameButVectorsAndPc s t) (h' : SameButVectorsAndPc t u) :
    SameButVectorsAndPc s u := by
  unfold SameButVectorsAndPc at *
  simp only [h', h, and_self]

/-- A run of completed steps changes vector registers and `pc` only. -/
theorem run_sameButVectorsAndPc {s : State} : ∀ {n : Nat} {t : State}, Host.Core.run core n s = .next t →
    SameButVectorsAndPc s t
  | 0, t, h => by rw [(run_zero s t).1 h]; exact sameButVectorsAndPc_refl s
  | n + 1, t, h => by
    obtain ⟨u, hu, ht⟩ := (run_succ_last n s t).1 h
    exact sameButVectorsAndPc_trans (run_sameButVectorsAndPc hu) (step_sameButVectorsAndPc ht)

/-- States that differ in vector registers and `pc` only hold the same code. -/
theorem fetchWindow_of_sameButVectorsAndPc {s t : State} (h : SameButVectorsAndPc s t) (m : Nat) (la : Word64) :
    t.fetchWindow m la = s.fetchWindow m la := by
  obtain ⟨-, -, -, -, -, -, -, -, -, hcpl, -, -, -, -, -, hcfg, hmem⟩ := h
  exact State.fetchWindow_congr hcfg hcpl hmem m la

/-- States that differ in vector registers and `pc` only are in the same mode. -/
theorem mode_of_sameButVectorsAndPc {s t : State} (h : SameButVectorsAndPc s t) : t.mode = s.mode := by
  obtain ⟨-, -, hfl, -, -, hcr0, -, -, -, -, hlma, hcsL, hsmm, -⟩ := h
  unfold State.mode State.pe State.vm
  rw [hfl, hcr0, hlma, hcsL, hsmm]

/-- Settles O41: a step by what its instruction retires, a run by induction on its steps. -/
theorem programTextIsConstant : Obligations.ProgramTextIsConstant :=
  ⟨fun _ _ h => step_sameButVectorsAndPc h,
    fun _ _ _ h => ⟨run_sameButVectorsAndPc h, fetchWindow_of_sameButVectorsAndPc (run_sameButVectorsAndPc h)⟩⟩

/-- Settles O43: the invariant speaks of memory, the parameters and the mode, and a step changes none of them. -/
theorem invariantKeptByEveryStep : Obligations.InvariantKeptByEveryStep := by
  intro s t hs hm h
  have hsame := step_sameButVectorsAndPc h
  have ⟨_, _, _, _, _, _, _, _, _, _, _, _, _, _, _, hcfg, hmem⟩ := hsame
  exact ⟨by rwa [CanonicalState, hcfg, hmem], (mode_of_sameButVectorsAndPc hsame).trans hm⟩

/-- Settles O44: whatever a step runs was enabled. -/
theorem onlyEnabledStatesRun : Obligations.OnlyEnabledStatesRun := by
  intro s t h
  obtain ⟨i, -, hi⟩ := step_next s t h
  obtain ⟨⟨hmode, hos, hx, -, -, hts⟩, -⟩ := exec_next i s t hi
  exact ⟨hmode, hos, hx, hts⟩

/-- Settles O40: a completing form by what it retires, a fault by the definition of the state it leaves. -/
theorem frameOfEveryForm : Obligations.FrameOfEveryForm :=
  ⟨fun _ _ _ h => exec_frame h, fun _ => ⟨fun _ _ => rfl, rfl, rfl, rfl, rfl, rfl⟩⟩

end Sys2Proof.Machine
end

section
/-! SUPPORT. What an instruction reads, and the reasons it can stop, in the order of 60_exceptions.md R152: the mode, the enabling conditions, then the memory operand. -/

namespace Sys2Proof.Machine

open Sys2Proof.Safety

/-! ## An instruction as what it reads and what it writes -/

/-- The element size `esize` of a row, in bits: the pseudocode's loop step (40_vex_forms.md to 42_evex_tuple_broadcast.md). -/
def elementBits : Instr → Nat
  | .vexF128YmmMem .. => 128
  | .vexSdYmmMem .. | .vexSdYmmReg .. | .evexSdYmm .. | .evexSdZmm .. | .evexF64x2Ymm .. | .evexF64x2Zmm ..
  | .evexF64x4Zmm .. => 64
  | .vexSsXmmMem .. | .vexSsYmmMem .. | .vexSsXmmReg .. | .vexSsYmmReg .. | .evexF32x2Ymm .. | .evexF32x2Zmm ..
  | .evexSsXmm .. | .evexSsYmm .. | .evexSsZmm .. | .evexF32x4Ymm .. | .evexF32x4Zmm .. | .evexF32x8Zmm .. => 32

/-- The number of elements `T` in the source tuple of a row (00_scope.md R14). -/
def tupleElements : Instr → Nat
  | .evexF32x2Ymm .. | .evexF32x2Zmm .. | .evexF64x2Ymm .. | .evexF64x2Zmm .. => 2
  | .evexF32x4Ymm .. | .evexF32x4Zmm .. | .evexF64x4Zmm .. => 4
  | .evexF32x8Zmm .. => 8
  | .vexSsXmmMem .. | .vexSsYmmMem .. | .vexSdYmmMem .. | .vexF128YmmMem .. | .vexSsXmmReg .. | .vexSsYmmReg ..
  | .vexSdYmmReg .. | .evexSdYmm .. | .evexSdZmm .. | .evexSsXmm .. | .evexSsYmm .. | .evexSsZmm .. => 1

/-- The destination's value from the source value (00_scope.md R13, R14). -/
def newValue (i : Instr) (s : State) (v : BitVec (8 * operandBytes i)) : VReg :=
  match scheme i with
  | .vex => broadcastVex (8 * operandBytes i) (vectorLength i) v
  | .evex => s.maskedBroadcast (elementBits i) (tupleElements i) (vectorLength i) (destination i)
      (maskingOf i) v

/-- Every row is the shared operation with `newValue`. -/
theorem exec_eq_broadcastForm (i : Instr) (s : State) : exec i s =
    broadcastForm (scheme i) (needs i) (8 * operandBytes i) (dispScale i) (legacyPrefixes i) (destination i) (sourceOf i)
      i.length (newValue i s) s := by
  cases i <;> rfl

/-- What an instruction does before it writes anything: the enabling check, then its source value. -/
def operandRead (i : Instr) (s : State) : Except Stop (BitVec (8 * operandBytes i)) :=
  match checkEnabled (scheme i) (needs i) s with
  | .error stop => .error stop
  | .ok () => s.readSource (8 * operandBytes i) (legacyPrefixes i) (nextPc s i) (dispScale i) (sourceOf i)

/-- A disabled instruction stops with the enabling check's reason. -/
theorem operandRead_of_disabled {i : Instr} {s : State} {stop : Stop}
    (h : checkEnabled (scheme i) (needs i) s = .error stop) : operandRead i s = .error stop := by
  rw [operandRead, h]

/-- An instruction retires what it read, or stops where the reading stopped. -/
theorem exec_eq_finish (i : Instr) (s : State) : exec i s =
    finish ((operandRead i s).map fun v => retire s (destination i) (newValue i s v) i.length) := by
  rw [exec_eq_broadcastForm, broadcastForm, operandRead]
  cases checkEnabled (scheme i) (needs i) s with
  | error stop => rfl
  | ok u =>
    simp only [nextPc]
    cases s.readSource (8 * operandBytes i) (legacyPrefixes i) (s.pc + BitVec.ofNat 64 i.length) (dispScale i) (sourceOf i) <;> rfl

/-- An instruction completes exactly when its source value is read. -/
theorem exec_next_iff (i : Instr) (s t : State) : exec i s = .next t ↔
    ∃ v, operandRead i s = .ok v ∧ t = retire s (destination i) (newValue i s v) i.length := by
  rw [exec_eq_finish, finish_next_iff]
  cases operandRead i s with
  | error stop => simp [Except.map]
  | ok v => simp [Except.map, eq_comm]

/-- An instruction stops exactly where its reading stops. -/
theorem exec_eq_outcome_iff (i : Instr) (s : State) (stop : Stop) :
    exec i s = stop.outcome ↔ operandRead i s = .error stop := by
  rw [exec_eq_finish]
  cases operandRead i s with
  | error e => cases e <;> cases stop <;> simp [Except.map, finish, Stop.outcome]
  | ok v => cases stop <;> simp [Except.map, finish, Stop.outcome]

/-- An instruction faults exactly where its reading faults. -/
theorem exec_fault_iff (i : Instr) (s : State) (f : Fault) :
    exec i s = .fault f ↔ operandRead i s = .error (.fault f) := exec_eq_outcome_iff i s (.fault f)

/-- An instruction is refused exactly where its reading is. -/
theorem exec_refused_iff (i : Instr) (s : State) (r : Refusal) :
    exec i s = .refused r ↔ operandRead i s = .error (.refuse r) := exec_eq_outcome_iff i s (.refuse r)

/-! ## Modes and enabling conditions -/

theorem checkEnabled_of_rule_undefinedOpcode {e : Scheme} {needs : List Feature} {s : State}
    (h : s.mode.rule = .undefinedOpcode) : checkEnabled e needs s = raise .ud := by
  rw [checkEnabled, h]

theorem checkEnabled_of_rule_refused {e : Scheme} {needs : List Feature} {s : State}
    (h : s.mode.rule = .refused) : checkEnabled e needs s = refuse .modeNotSpecified := by
  rw [checkEnabled, h]

/-- With every #UD condition met, CR0.TS = 1 is #NM (60_exceptions.md R147). -/
theorem checkEnabled_nm {e : Scheme} {needs : List Feature} {s : State} (hm : s.mode = .bits64)
    (hv : s.vectorEnabled e = true) (hf : s.hasFeatures needs = true) (hts : s.ts = true) :
    checkEnabled e needs s = raise .nm := by
  simp [checkEnabled, hm, Mode.rule, hv, hf, hts]

/-- The enabling check faults with #UD and #NM only. -/
theorem checkEnabled_fault {e : Scheme} {needs : List Feature} {s : State} {f : Fault}
    (h : checkEnabled e needs s = .error (.fault f)) : f = .ud ∨ f = .nm := by
  unfold checkEnabled at h
  split at h
  case h_1 => cases h
  case h_2 => cases h; exact .inl rfl
  case h_3 =>
    split at h
    · cases h; exact .inl rfl
    · split at h
      · cases h; exact .inr rfl
      · cases h

theorem rule_undefinedOpcode_iff (m : Mode) : m.rule = .undefinedOpcode ↔ m = .realAddress ∨ m = .virtual8086 := by
  cases m <;> simp [Mode.rule]

theorem rule_refused_iff (m : Mode) :
    m.rule = .refused ↔ m = .compatibility ∨ m = .protected32 ∨ m = .systemManagement := by
  cases m <;> simp [Mode.rule]

/-- Where VEX and EVEX forms are undefined every form raises #UD. -/
theorem exec_of_rule_undefinedOpcode {i : Instr} {s : State} (h : s.mode.rule = .undefinedOpcode) :
    exec i s = .fault .ud :=
  (exec_fault_iff i s _).2 (operandRead_of_disabled (checkEnabled_of_rule_undefinedOpcode h))

/-- Every form keeps the order of #UD and #NM. -/
theorem enablingStops (i : Instr) : EnablingStops i := by
  refine fun s => ⟨fun hm => exec_of_rule_undefinedOpcode ((rule_undefinedOpcode_iff _).2 hm), fun hm hmissing => ?_,
    fun hm hos hx hx512 hf hts => ?_⟩
  · refine (exec_fault_iff i s _).2 (operandRead_of_disabled (checkEnabled_ud _ _ s hm ?_))
    rw [Bool.and_eq_false_iff, ← Bool.not_eq_true, ← Bool.not_eq_true, s.vectorEnabled_iff, s.hasFeatures_iff]
    rcases hmissing with hos | hx | ⟨he, hx512⟩ | ⟨f, hf, hc⟩
    · simp [hos]
    · simp [hx]
    · simp [he, hx512]
    · exact .inr fun h => by simp [h f hf] at hc
  · exact (exec_fault_iff i s _).2 (operandRead_of_disabled (checkEnabled_nm hm
      ((s.vectorEnabled_iff _).2 ⟨hos, hx, hx512⟩) ((s.hasFeatures_iff _).2 hf) hts))

/-- Settles O35: `enablingStops` for every form. -/
theorem enablingConditionsInOrder : Obligations.EnablingConditionsInOrder := enablingStops

/-- No step is fetched in a mode the spec refuses. -/
theorem step_of_rule_refused {s : State} (h : s.mode.rule = .refused) : step s = .refused .modeNotSpecified := by
  have hf : s.fetchInstr = refuse .modeNotSpecified := by rw [State.fetchInstr, h]
  rw [step, hf]
  rfl

/-- Settles O36: the step does not fetch, and the enabling check of every form refuses. -/
theorem otherModesAreRefused : Obligations.OtherModesAreRefused := by
  intro s hm
  have hrule := (rule_refused_iff _).2 hm
  exact ⟨step_of_rule_refused hrule, fun i =>
    (exec_refused_iff i s _).2 (operandRead_of_disabled (checkEnabled_of_rule_refused hrule))⟩

/-- A form with a register source stops in the enabling check only. -/
theorem registerStops (i : Instr) : RegisterStops i := by
  intro r hr s f h
  rw [exec_fault_iff, operandRead, hr] at h
  split at h
  case h_1 stop hstop => cases h; exact checkEnabled_fault hstop
  case h_2 => cases h

/-! ## Memory operands -/

section Operand

variable {s : State} {n : Nat} {seg : Segment} {la : Word64}

theorem memRead_not_canonical (h : ∃ k < n, canonical s.cfg.vaBits (byteAddress la k) = false) :
    s.memRead (8 * n) seg la = raise (if seg = .ss then .ss else .gp) := by
  have hc : s.allCanonical la n = false := by
    rw [← Bool.not_eq_true, s.allCanonical_iff]
    obtain ⟨k, hk, hf⟩ := h
    exact fun hall => by simp [hall k hk] at hf
  rw [State.memRead, Nat.mul_div_cancel_left n (by decide), hc]
  rfl

variable (hc : ∀ k < n, canonical s.cfg.vaBits (byteAddress la k) = true)

include hc

theorem memRead_pageFault {k : Nat} {code : BitVec 32} (hk : k < n) (hj : ∀ j < k, Mapped s la j)
    (hp : s.translate .read (byteAddress la k) = .pageFault code) :
    s.memRead (8 * n) seg la = raise (.pf (byteAddress la k) code) := by
  simp [State.memRead, (s.allCanonical_iff la n).2 hc, s.firstPageFault_first .read la n k code hk hj hp]

variable (hp : ∀ k < n, Mapped s la k)

include hp

theorem memRead_misaligned (hac : s.acEnabled = true) (hmod : la.toNat % n ≠ 0) :
    s.memRead (8 * n) seg la = if n ≤ 8 then raise .ac else refuse .wideAlignmentCheck := by
  simp [State.memRead, (s.allCanonical_iff la n).2 hc, (s.firstPageFault_none_iff .read la n).2 hp, hac, hmod]

theorem memRead_device (hal : s.acEnabled = true → la.toNat % n = 0)
    (hd : ∃ k < n, ∃ pa, s.translate .read (byteAddress la k) = .mapped pa true) :
    s.memRead (8 * n) seg la = refuse .deviceMemory := by
  have hdev : s.touchesDevice .read la n = true := by
    obtain ⟨k, hk, pa, hpa⟩ := hd
    rw [State.touchesDevice, List.any_eq_true]
    exact ⟨k, List.mem_range.2 hk, by rw [hpa]⟩
  have hal' : (s.acEnabled && la.toNat % n != 0) = false := by
    cases hac : s.acEnabled
    · rfl
    · simp [hal hac]
  simp [State.memRead, (s.allCanonical_iff la n).2 hc, (s.firstPageFault_none_iff .read la n).2 hp, hal', hdev]

end Operand

/-- Every form with a memory source keeps the order of its memory exceptions. -/
theorem memoryStops (i : Instr) : MemoryStops i := by
  intro s seg la hr ho
  refine ⟨fun hc => exec_unreadable i s seg la _ hr ho (memRead_not_canonical hc), fun hc =>
    ⟨fun k hk code hj hp => exec_unreadable i s seg la _ hr ho (memRead_pageFault hc hk hj hp),
      fun hp hac hmod hn => exec_unreadable i s seg la (.fault .ac) hr ho ?_⟩⟩
  rw [memRead_misaligned hc hp hac hmod, if_pos hn]
  rfl

/-- Settles O37: `memoryStops` for every form, and the canonical check in words by `canonical_iff_bits`. -/
theorem memoryExceptionsInOrder : Obligations.MemoryExceptionsInOrder :=
  ⟨memoryStops, canonical_iff_bits⟩

/-- Settles O38: the two refusals of a memory read, after every exception of the operand. -/
theorem unspecifiedMemoryIsRefused : Obligations.UnspecifiedMemoryIsRefused := by
  intro i s seg la hr ho hb
  have hc : ∀ k < operandBytes i, canonical s.cfg.vaBits (byteAddress la k) = true := fun k hk => (hb k hk).1
  have hp : ∀ k < operandBytes i, Mapped s la k := fun k hk => (hb k hk).2
  refine ⟨fun hac hmod hn => exec_unreadable i s seg la (.refuse .wideAlignmentCheck) hr ho ?_,
    fun hal hd => exec_unreadable i s seg la _ hr ho (memRead_device hc hp hal hd)⟩
  rw [memRead_misaligned hc hp hac hmod, if_neg (by omega)]
  rfl

/-- The opmask registers are not read before the destination is written. -/
theorem operandRead_opmask (i : Instr) (s : State) (k : Vector Word64 8) :
    operandRead i { s with k := k } = operandRead i s := rfl

/-- Settles O39: a form stops in the enabling check or in the read of its source, and neither sees the opmask registers. -/
theorem maskDoesNotSuppressFaults : Obligations.MaskDoesNotSuppressFaults := fun i s k =>
  ⟨fun f => by rw [exec_fault_iff, exec_fault_iff, operandRead_opmask i s k],
    fun r => by rw [exec_refused_iff, exec_refused_iff, operandRead_opmask i s k]⟩

end Sys2Proof.Machine
end

section
/-! SUPPORT. The destination's value, row by row and bit by bit: what a completed form leaves in its destination, and on which parts of the state that value depends (00_scope.md R13, R14, 10_state.md R22, R23, 20_memory.md R42). -/

namespace Sys2Proof.Machine

open Sys2Proof.Safety

/-! ## Rows -/

/-- A retired form is completed when its value has the lanes and the zeros. -/
theorem completed_retire {i : Instr} {d : BitVec 5} {esize vl : Nat} {f : Nat → BitVec esize} {s : State} {value : VReg}
    (hlane : ∀ j < vl / esize, lane esize j value = f j) (habove : ∀ b, vl ≤ b → value.getLsbD b = false) :
    Completed i d esize vl f s (retire s d value i.length) := by
  refine ⟨?_, ?_, rfl, retire_frame s d value _⟩
  · rwa [retire_readV_same]
  · rwa [retire_readV_same]

/-- A readable form in an enabled state reads its source and retires. -/
theorem broadcastForm_of_ready {e : Scheme} {flags : List Feature} {w scale : Nat} {ps : List LegacyPrefix} {d : BitVec 5}
    {src : Source} {i : Instr} {s : State} (value : BitVec w → VReg) (hr : Ready e flags s)
    (hsrc : SourceReadable (w / 8) scale i ps src s) : ∃ v, IsSource w scale i ps src s v ∧
      broadcastForm e flags w scale ps d src i.length value s = .next (retire s d (value v) i.length) := by
  obtain ⟨v, hread, hv⟩ := s.readSource_of_readable w scale i ps src hsrc
  exact ⟨v, hv, (broadcastForm_next_iff ..).2 ⟨(checkEnabled_ok_iff ..).2 hr, v, hread, rfl⟩⟩

/-- The effect of a VEX row: the source value in every element, zeros above (00_scope.md R13). -/
theorem vexEffect_of_exec {i : Instr} {flags : List Feature} {esize vl : Nat} {ps : List LegacyPrefix} {d : BitVec 4}
    {src : Source} (hexec : ∀ s, exec i s = vexForm flags esize vl ps d src i.length s) (he : 0 < esize) (hvl : vl ≤ 512) :
    VexEffect i flags esize vl ps d src := by
  intro s hr hsrc
  obtain ⟨v, hv, hnext⟩ := broadcastForm_of_ready (d := d.setWidth 5) (broadcastVex esize vl) hr hsrc
  have hfit : vl / esize * esize ≤ 512 := (Nat.div_mul_le_self vl esize).trans hvl
  exact ⟨v, hv, _, (hexec s).trans hnext, completed_retire
    (fun j hj => assemble_element 512 esize _ _ j hj hfit)
    (fun b hb => assemble_above 512 esize _ _ b he ((Nat.div_mul_le_self vl esize).trans hb))⟩

/-- The effect of an EVEX row: elements written, zeroed or kept, zeros above (00_scope.md R14). -/
theorem evexEffect_of_exec {i : Instr} {flags : List Feature} {esize n vl : Nat} {ps : List LegacyPrefix} {d : BitVec 5}
    {k : Masking} {src : Source} (hexec : ∀ s, exec i s = evexForm flags esize n vl ps d k src i.length s)
    (he : 0 < esize) (hvl : vl ≤ 512) : EvexEffect i flags esize n vl ps d k src := by
  intro s hr hsrc
  obtain ⟨v, hv, hnext⟩ := broadcastForm_of_ready (d := d) (s.maskedBroadcast esize n vl d k) hr hsrc
  refine ⟨v, hv, _, (hexec s).trans hnext, completed_retire (fun j hj => ?_)
    (fun b hb => broadcastEvex_above _ _ _ _ _ he hb)⟩
  rw [State.maskedBroadcast, lane_broadcastEvex _ _ _ _ _ hvl hj, maskedElement]
  simp only [beq_iff_eq]

/-! ## The value of any row -/

theorem elementBits_pos (i : Instr) : 0 < elementBits i := by cases i <;> simp [elementBits]

theorem elementBits_dvd_vectorLength (i : Instr) : elementBits i ∣ vectorLength i := by
  cases i <;> simp [elementBits, vectorLength]

theorem vectorLength_le (i : Instr) : vectorLength i ≤ 512 := by cases i <;> simp [vectorLength]

theorem tupleElements_mul_elementBits (i : Instr) : tupleElements i * elementBits i = 8 * operandBytes i := by
  cases i <;> simp [tupleElements, elementBits, operandBytes]

theorem maskedElements_of_evex {i : Instr} (h : scheme i = .evex) : maskedElements i = vectorLength i / elementBits i := by
  cases i <;> simp [scheme, maskedElements, vectorLength, elementBits] at h ⊢

theorem elementBits_of_vex {i : Instr} (h : scheme i = .vex) : elementBits i = 8 * operandBytes i := by
  cases i <;> simp [scheme, elementBits, operandBytes] at h ⊢

theorem newValue_vex {i : Instr} (h : scheme i = .vex) (s : State) (v : BitVec (8 * operandBytes i)) :
    newValue i s v = broadcastVex (8 * operandBytes i) (vectorLength i) v := by
  simp only [newValue, h]

theorem newValue_evex {i : Instr} (h : scheme i = .evex) (s : State) (v : BitVec (8 * operandBytes i)) :
    newValue i s v = broadcastEvex (s.readV (destination i)) v (elementBits i) (tupleElements i) (vectorLength i)
      ((maskingOf i).aaa == 0#3) (s.readK (maskingOf i).aaa) (maskingOf i).z := by
  simp only [newValue, h, State.maskedBroadcast]

/-- A bit of a register is a bit of its element. -/
theorem getLsbD_eq_lane {e : Nat} (he : 0 < e) (r : VReg) (b : Nat) :
    r.getLsbD b = (lane e (b / e) r).getLsbD (b % e) := by
  rw [lane, BitVec.getLsbD_extractLsb', Nat.div_add_mod']
  simp [Nat.mod_lt b he]

/-- `BroadcastEVEX` sees of the mask only the bits of the elements below the vector length. -/
theorem broadcastEvex_congr_mask {w esize t vl : Nat} (old : VReg) (src : BitVec w) {nomask : Bool} {m m' : Word64}
    (zeroing : Bool) (h : nomask = true ∨ ∀ j < vl / esize, m'.getLsbD j = m.getLsbD j) :
    broadcastEvex old src esize t vl nomask m' zeroing = broadcastEvex old src esize t vl nomask m zeroing := by
  refine assemble_congr 512 esize _ fun j hj => ?_
  rcases h with rfl | h
  · rfl
  · rw [h j hj]

/-- The destination's value depends on its old value and on the mask bits of its elements only. -/
theorem newValue_congr {i : Instr} {s s' : State} (hv : s'.readV (destination i) = s.readV (destination i))
    (hk : (maskingOf i).aaa = 0#3 ∨ ∀ j < maskedElements i,
      (s'.readK (maskingOf i).aaa).getLsbD j = (s.readK (maskingOf i).aaa).getLsbD j) (v : BitVec (8 * operandBytes i)) :
    newValue i s' v = newValue i s v := by
  cases h : scheme i with
  | vex => rw [newValue_vex h, newValue_vex h]
  | evex =>
    rw [maskedElements_of_evex h] at hk
    rw [newValue_evex h, newValue_evex h, hv]
    exact broadcastEvex_congr_mask _ _ _ (hk.imp_left fun h0 => by rw [h0]; rfl)

/-! ## What does not matter -/

/-- Of two states that give an instruction the same reads and the same value, if it completes in one it completes in the other with that value. -/
theorem exec_next_of_same_reads {i : Instr} {s s' t : State} (hread : operandRead i s' = operandRead i s)
    (hval : ∀ v, newValue i s' v = newValue i s v) (h : exec i s = .next t) :
    ∃ x, t = retire s (destination i) x i.length ∧ exec i s' = .next (retire s' (destination i) x i.length) := by
  obtain ⟨v, hv, rfl⟩ := (exec_next_iff i s t).1 h
  exact ⟨_, rfl, (exec_next_iff i s' _).2 ⟨v, hread.trans hv, by rw [hval]⟩⟩

/-- Register values that agree in the low bits have the same low bits. -/
theorem setWidth_eq_of_low_bits {w : Nat} {a b : VReg} (h : ∀ i < w, a.getLsbD i = b.getLsbD i) :
    a.setWidth w = b.setWidth w := by
  refine BitVec.eq_of_getLsbD_eq fun i hi => ?_
  simp only [BitVec.getLsbD_setWidth, h i hi]

/-- A write to another register than the destination commutes with completion. -/
theorem retire_setV (s : State) {d r : BitVec 5} (h : r ≠ d) (value x : VReg) (len : Nat) :
    retire (s.setV r value) d x len = (retire s d x len).setV r value := by
  have hn : r.toNat ≠ d.toNat := fun e => h (BitVec.eq_of_toNat_eq e)
  simp only [retire, State.setPc, State.setV, State.mk.injEq, and_true]
  exact Vector.set_comm _ _ hn

/-- Settles O48: the low bits of the source register give the same source value, and the destination is another register. -/
theorem unreadSourceBitsDoNotMatter : Obligations.UnreadSourceBitsDoNotMatter := by
  intro i r s t value hsrc hne hlow h
  have hread : operandRead i (s.setV r value) = operandRead i s := by
    simp only [operandRead, hsrc, State.readSource, State.readV_setV_same, setWidth_eq_of_low_bits hlow]
    rfl
  have hold : (s.setV r value).readV (destination i) = s.readV (destination i) :=
    s.readV_setV_other value (Ne.symm hne)
  obtain ⟨x, rfl, h'⟩ := exec_next_of_same_reads hread (newValue_congr hold (.inr fun _ _ => rfl)) h
  rw [h', retire_setV s hne]

/-- Settles O49: the opmask registers enter through the destination's value only. -/
theorem maskBitsAboveTheElementsDoNotMatter : Obligations.MaskBitsAboveTheElementsDoNotMatter := by
  intro i s t k hk h
  obtain ⟨x, rfl, h'⟩ := exec_next_of_same_reads (operandRead_opmask i s k) (newValue_congr rfl hk) h
  exact h'

/-- The enabling check sees the mode, the vector state that is enabled, the parameters and TS. -/
theorem checkEnabled_congr {e : Scheme} {flags : List Feature} {s s' : State} (hm : s'.mode = s.mode)
    (hv : s'.vectorEnabled e = s.vectorEnabled e) (hcfg : s'.cfg = s.cfg) (hts : s'.ts = s.ts) :
    checkEnabled e flags s' = checkEnabled e flags s := by
  unfold checkEnabled State.hasFeatures
  rw [hm, hv, hcfg, hts]

/-- Settles O50: of the flags the enabling check sees VM and a memory read sees AC; nothing sees MXCSR or the x87 state. -/
theorem floatingPointStateIsNotRead : Obligations.FloatingPointStateIsNotRead := by
  intro i s t mx x87 fl hvm hac h
  have hmode : { s with mxcsr := mx, x87 := x87, rflags := fl }.mode = s.mode := by
    unfold State.mode State.vm
    rw [hvm]
    rfl
  have hacEnabled : { s with mxcsr := mx, x87 := x87, rflags := fl }.acEnabled = s.acEnabled := by
    unfold State.acEnabled State.alignCheck
    rw [hac]
    rfl
  have hread : operandRead i { s with mxcsr := mx, x87 := x87, rflags := fl } = operandRead i s := by
    rw [operandRead, operandRead, checkEnabled_congr hmode rfl rfl rfl]
    cases sourceOf i with
    | reg r => rfl
    | mem m =>
      simp only [State.readSource, State.memRead, hacEnabled]
      rfl
  obtain ⟨x, rfl, h'⟩ := exec_next_of_same_reads hread (newValue_congr rfl (.inr fun _ _ => rfl)) h
  exact h'

/-- A value of memory is made of its bytes. -/
theorem valueAt_congr {s s' : State} {w : Nat} {la : Word64}
    (h : ∀ k < w / 8, s'.byteAt .read (byteAddress la k) = s.byteAt .read (byteAddress la k)) :
    s'.valueAt w la = s.valueAt w la := assemble_congr w 8 _ h

/-- Settles O51: memory enters through the bytes of the operand only. -/
theorem onlyTheOperandBytesAreRead : Obligations.OnlyTheOperandBytesAreRead := by
  intro i s t mem hbytes h
  have hread : operandRead i (s.setMem mem) = operandRead i s := by
    rw [operandRead, operandRead]
    cases hsrc : sourceOf i with
    | reg r => rfl
    | mem m =>
      have ho : operandAddress i s = some (segmentOf (legacyPrefixes i) m,
          s.linearAddress (legacyPrefixes i) (nextPc s i) (dispScale i) m) := by rw [operandAddress, hsrc]
      have hvalue := valueAt_congr (w := 8 * operandBytes i)
        (by rw [Nat.mul_div_cancel_left _ (by decide)]; exact hbytes _ _ ho)
      simp only [State.readSource, State.memRead, ← hvalue]
      rfl
  obtain ⟨x, rfl, h'⟩ := exec_next_of_same_reads hread (newValue_congr rfl (.inr fun _ _ => rfl)) h
  exact h'

/-! ## Without a writemask, and with an empty one -/

/-- The source value that was read, by the kind of the source. -/
theorem operandRead_ok {i : Instr} {s : State} {v : BitVec (8 * operandBytes i)} (h : operandRead i s = .ok v) :
    (∃ r, sourceOf i = .reg r ∧ v = (s.readV r).setWidth (8 * operandBytes i)) ∨
      ∃ seg la, operandAddress i s = some (seg, la) ∧ v = s.valueAt (8 * operandBytes i) la := by
  rw [operandRead] at h
  split at h
  case h_1 => cases h
  case h_2 =>
    cases hsrc : sourceOf i with
    | reg r =>
      rw [hsrc] at h
      cases h
      exact .inl ⟨r, rfl, rfl⟩
    | mem m =>
      rw [hsrc] at h
      obtain ⟨rfl, -⟩ := s.memRead_ok _ _ _ v h
      exact .inr ⟨_, _, by rw [operandAddress, hsrc], rfl⟩

/-- Two instructions read the same source: one register, or one address. -/
def SameSource (i i' : Instr) (s : State) : Prop :=
  (∃ r, sourceOf i = .reg r ∧ sourceOf i' = .reg r) ∨
    ((operandAddress i s).isSome = true ∧ operandAddress i' s = operandAddress i s)

/-- A form with an address has no source register. -/
theorem operandAddress_of_reg {i : Instr} {r : BitVec 5} (h : sourceOf i = .reg r) (s : State) :
    operandAddress i s = none := by rw [operandAddress, h]

/-- Operands of one size from one source are the same bits. -/
theorem operandRead_getLsbD_eq {i i' : Instr} {s : State} {v : BitVec (8 * operandBytes i)}
    {v' : BitVec (8 * operandBytes i')} (hsrc : SameSource i i' s) (hb : operandBytes i' = operandBytes i)
    (hv : operandRead i s = .ok v) (hv' : operandRead i' s = .ok v') (b : Nat) : v'.getLsbD b = v.getLsbD b := by
  rcases hsrc with ⟨r, hr, hr'⟩ | ⟨hsome, heq⟩
  · rcases operandRead_ok hv with ⟨q, hq, rfl⟩ | ⟨seg, la, ha, -⟩
    · rcases operandRead_ok hv' with ⟨q', hq', rfl⟩ | ⟨seg, la, ha, -⟩
      · cases hr.symm.trans hq
        cases hr'.symm.trans hq'
        rw [hb]
      · cases (operandAddress_of_reg hr' s).symm.trans ha
    · cases (operandAddress_of_reg hr s).symm.trans ha
  · rcases operandRead_ok hv with ⟨q, hq, -⟩ | ⟨seg, la, ha, rfl⟩
    · simp [operandAddress_of_reg hq s] at hsome
    · rcases operandRead_ok hv' with ⟨q', hq', -⟩ | ⟨seg', la', ha', rfl⟩
      · rw [← heq, operandAddress_of_reg hq' s] at hsome
        cases hsome
      · cases ha'.symm.trans (heq.trans ha)
        rw [hb]

/-- Without a writemask `BroadcastEVEX` repeats its tuple up to the vector length. -/
theorem broadcastEvex_unmasked_getLsbD {w esize t vl : Nat} (he : 0 < esize) (hd : esize ∣ vl) (hvl : vl ≤ 512)
    (old : VReg) (src : BitVec w) (m : Word64) (zeroing : Bool) (b : Nat) :
    (broadcastEvex old src esize t vl true m zeroing).getLsbD b =
      (decide (b < vl) && src.getLsbD (b % (t * esize))) := by
  by_cases hb : b < vl
  · have hj : b / esize < vl / esize := Nat.div_lt_div_of_lt_of_dvd hd hb
    have hmod : b / esize % t * esize + b % esize = b % (t * esize) := by
      rw [Nat.mul_comm t, Nat.mod_mul, Nat.add_comm, Nat.mul_comm]
    rw [getLsbD_eq_lane he, lane_broadcastEvex _ _ _ _ _ hvl hj, if_pos (.inl rfl), BitVec.getLsbD_extractLsb', hmod]
    simp [hb, Nat.mod_lt b he]
  · rw [broadcastEvex_above _ _ _ _ _ he (Nat.le_of_not_lt hb)]
    simp [hb]

/-- An unmasked EVEX form and a VEX form of one size, length and destination that complete on one source leave the same vector registers. -/
theorem vectors_eq_of_unmasked {i i' : Instr} {s t t' : State} (h : exec i s = .next t) (h' : exec i' s = .next t')
    (hsrc : SameSource i i' s) (hi : scheme i = .vex) (hi' : scheme i' = .evex) (hk : (maskingOf i').aaa = 0#3)
    (hb : operandBytes i' = operandBytes i) (hvl : vectorLength i' = vectorLength i) (hd : destination i' = destination i) :
    t'.v = t.v := by
  obtain ⟨v, hv, rfl⟩ := (exec_next_iff i s t).1 h
  obtain ⟨v', hv', rfl⟩ := (exec_next_iff i' s t').1 h'
  have hvalue : newValue i' s v' = newValue i s v := by
    refine BitVec.eq_of_getLsbD_eq fun b _ => ?_
    rw [newValue_vex hi, newValue_evex hi', hk, broadcastVex_getLsbD (by rw [← elementBits_of_vex hi]; exact elementBits_pos i)
        (by rw [← elementBits_of_vex hi]; exact elementBits_dvd_vectorLength i) (vectorLength_le i), beq_self_eq_true,
      broadcastEvex_unmasked_getLsbD (elementBits_pos i') (elementBits_dvd_vectorLength i') (vectorLength_le i'),
      operandRead_getLsbD_eq hsrc hb hv hv', tupleElements_mul_elementBits, hb, hvl]
  rw [retire_v, retire_v, hvalue]
  simp only [hd]

/-- Settles O52: each pair of forms has one size, one length, one destination and the same source. -/
theorem vexAndEvexAgreeUnmasked : Obligations.VexAndEvexAgreeUnmasked := by
  rintro ps d s t t' i i' _ _ ⟨rfl, rfl⟩ hsrc hforms h h'
  have hsame : SameSource i i' s := hsrc
  rcases hforms with ⟨⟨m, rfl⟩ | ⟨r, rfl⟩, hi'⟩ | ⟨⟨m, rfl⟩ | ⟨r, rfl⟩, hi'⟩ | ⟨⟨m, rfl⟩ | ⟨r, rfl⟩, hi'⟩
  all_goals
    rw [hi'] at h' hsame
    exact vectors_eq_of_unmasked h h' hsame rfl rfl rfl rfl rfl rfl

/-- Settles O53: four elements of 32 bits are one of 128. -/
theorem f32x4UnmaskedIsF128 : Obligations.F32x4UnmaskedIsF128 :=
  fun _ _ _ _ _ _ _ ho h h' => vectors_eq_of_unmasked h h' (.inr ⟨rfl, ho⟩) rfl rfl rfl rfl rfl rfl

/-- Settles O54: every element is kept, the bits above the vector length are those of `broadcastEvex_above`. -/
theorem allZeroMergingMaskIsNotANop : Obligations.AllZeroMergingMaskIsNotANop := by
  intro i s t hi haaa hz hmask h
  refine ⟨fun b _ => ?_, (exec_frame h).2⟩
  obtain ⟨v, -, rfl⟩ := (exec_next_iff i s t).1 h
  have he := elementBits_pos i
  rw [retire_readV_same, newValue_evex hi]
  by_cases hb : b < vectorLength i
  · have hj : b / elementBits i < vectorLength i / elementBits i :=
      Nat.div_lt_div_of_lt_of_dvd (elementBits_dvd_vectorLength i) hb
    have hbit := hmask (b / elementBits i) (by rwa [maskedElements_of_evex hi])
    rw [getLsbD_eq_lane he, lane_broadcastEvex _ _ _ _ _ (vectorLength_le i) hj,
      if_neg (by simp [haaa, hbit]), if_neg (by simp [hz]), ← getLsbD_eq_lane he]
    simp [hb]
  · rw [broadcastEvex_above _ _ _ _ _ he (Nat.le_of_not_lt hb)]
    simp [hb]

end Sys2Proof.Machine
end

section
/-! SUPPORT. Effective and linear addresses, the displacement factor, segments (20_memory.md R46 to R48, 30_encoding.md R61, R73), the fault code of a read and the launch state. -/

namespace Sys2Proof.Machine

open Sys2Proof.Safety

/-! ## Effective addresses -/

theorem twoPow_eq_ofNat (w k : Nat) : BitVec.twoPow w k = BitVec.ofNat w (2 ^ k) :=
  BitVec.eq_of_toNat_eq (by rw [BitVec.toNat_twoPow, BitVec.toNat_ofNat])

/-- The index term of a register: the register times the scale (20_memory.md R46). -/
theorem indexTerm_of_ne {s : State} {ss : BitVec 2} {x : BitVec 4} (h : x ≠ 4#4) :
    s.indexTerm ss x = s.readX x * BitVec.ofNat 64 (2 ^ ss.toNat) := by
  rw [State.indexTerm, if_neg h, BitVec.shiftLeft_eq_mul_twoPow, twoPow_eq_ofNat]

/-- Index number 4 is no index. -/
@[simp] theorem indexTerm_four (s : State) (ss : BitVec 2) : s.indexTerm ss 4#4 = 0#64 := rfl

theorem effectiveAddress_64 {ps : List LegacyPrefix} (h : addressSize32 ps = false) (s : State) (nextpc : Word64) (n : Nat)
    (m : MemOperand) : s.effectiveAddress ps nextpc n m = s.address64 nextpc n m := by
  simp [State.effectiveAddress, h]

theorem effectiveAddress_32 {ps : List LegacyPrefix} (h : addressSize32 ps = true) (s : State) (nextpc : Word64) (n : Nat)
    (m : MemOperand) :
    s.effectiveAddress ps nextpc n m = ((s.address64 nextpc n m).setWidth 32).setWidth 64 := by
  simp [State.effectiveAddress, h]

/-- The three cases of a displacement (30_encoding.md R72, R73). -/
theorem dispValue_cases (n : Nat) : dispValue n .absent = 0#64 ∧
    (∀ v, dispValue n (.disp8 v) = v.signExtend 64 * BitVec.ofNat 64 n) ∧
    ∀ v, dispValue n (.disp32 v) = v.signExtend 64 := ⟨rfl, fun _ => rfl, fun _ => rfl⟩

/-- Settles O55: with 64-bit address size the effective address is `address64`, shape by shape. -/
theorem effectiveAddressCases : Obligations.EffectiveAddressCases := by
  intro s ps nextpc n h
  simp only [effectiveAddress_64 h, State.address64]
  exact ⟨dispValue_cases n, fun _ _ => trivial, fun _ => trivial, fun _ _ _ _ hx => by rw [indexTerm_of_ne hx],
    fun _ _ _ => by simp, fun _ _ _ hx => by rw [indexTerm_of_ne hx], fun _ _ => by simp⟩

/-- Half of a scaled register is the scaled half. -/
theorem setWidth_mul_two_pow (a : Word64) (k : Nat) : (a * BitVec.ofNat 64 (2 ^ k)).setWidth 32 =
    a.setWidth 32 * BitVec.ofNat 32 (2 ^ k) := by
  rw [BitVec.setWidth_mul _ _ (by decide), BitVec.setWidth_ofNat_of_le (by decide)]

theorem setWidth_signExtend_32 (v : BitVec 32) : (v.signExtend 64).setWidth 32 = v := by
  refine BitVec.eq_of_getLsbD_eq fun i hi => ?_
  rw [BitVec.getLsbD_setWidth, BitVec.getLsbD_signExtend, if_pos hi]
  simp [hi, show i < 64 by omega]

/-- Settles O56: taking the low half commutes with the sums and the scale of `address64`. -/
theorem addressSize32UsesLowHalves : Obligations.AddressSize32UsesLowHalves := by
  intro s ps nextpc n h lo
  simp only [lo, effectiveAddress_32 h, State.address64, BitVec.setWidth_add _ _ (show 32 ≤ 64 by decide)]
  refine ⟨dispValue_cases n, fun _ _ => trivial, fun _ => trivial, fun _ _ _ _ hx => ?_, fun _ _ _ => by simp,
    fun _ _ _ hx => ?_, fun _ _ => ?_⟩
  · rw [indexTerm_of_ne hx, setWidth_mul_two_pow]
  · rw [indexTerm_of_ne hx, setWidth_mul_two_pow, setWidth_signExtend_32]
  · rw [indexTerm_four, setWidth_signExtend_32]
    simp

/-! ## Segments -/

/-- Bytes without FS and GS override nothing. -/
theorem segmentOverride_none {b : List LegacyPrefix} (h : ∀ p ∈ b, p ≠ .fs ∧ p ≠ .gs) : segmentOverride b = none := by
  induction b with
  | nil => rfl
  | cons p b ih =>
    obtain ⟨hp, hb⟩ := List.forall_mem_cons.1 h
    simp [segmentOverride, ih hb, hp]

/-- An override is not undone by bytes in front of it. -/
theorem segmentOverride_append (a : List LegacyPrefix) {b : List LegacyPrefix} {g : Segment}
    (h : segmentOverride b = some g) : segmentOverride (a ++ b) = some g := by
  induction a with
  | nil => exact h
  | cons p a ih => simp [segmentOverride, ih]

/-- Settles O57: the override is read from the last byte to the first. -/
theorem segmentOfAMemoryOperand : Obligations.SegmentOfAMemoryOperand := by
  intro a b m hb
  have hfs : segmentOverride (.fs :: b) = some .fs := by simp [segmentOverride, segmentOverride_none hb]
  have hgs : segmentOverride (.gs :: b) = some .gs := by simp [segmentOverride, segmentOverride_none hb]
  refine ⟨?_, ?_, ?_, fun s => ⟨rfl, rfl, rfl, rfl, fun _ _ _ _ => rfl⟩⟩
  · rw [segmentOf, segmentOverride_append a hfs]
  · rw [segmentOf, segmentOverride_append a hgs]
  · rw [segmentOf, segmentOverride_none hb]
    rfl

/-! ## The compressed displacement -/

theorem dispScale_le (i : Instr) : dispScale i ≤ 32 := by
  cases i <;> simp [dispScale, scheme, operandBytes]

/-- A disp8 times a factor of at most 32 bytes does not overflow 32 bits, nor more. -/
theorem toInt_disp8_mul (v : BitVec 8) {n w : Nat} (hn : n ≤ 32) (hw : 32 ≤ w) :
    (v.signExtend w * BitVec.ofNat w n).toInt = v.toInt * n := by
  have hlo : -128 ≤ v.toInt := v.le_toInt
  have hhi : v.toInt < 128 := v.toInt_lt
  have hlo' : -4096 ≤ v.toInt * n := by nlinarith
  have hhi' : v.toInt * n ≤ 4096 := by nlinarith
  have hpow : 2 ^ 32 ≤ 2 ^ w := Nat.pow_le_pow_right (by decide) hw
  rw [BitVec.toInt_mul, BitVec.toInt_signExtend_of_le (by omega), BitVec.toInt_ofNat',
    Int.bmod_eq_of_le (n := (n : Int)) (by omega) (by omega), Int.bmod_eq_of_le (by omega) (by omega)]

/-- A scaled disp8 is a disp32. -/
theorem signExtend_disp8_mul (v : BitVec 8) {n : Nat} (hn : n ≤ 32) :
    (v.signExtend 32 * BitVec.ofNat 32 n).signExtend 64 = v.signExtend 64 * BitVec.ofNat 64 n :=
  BitVec.eq_of_toInt_eq (by
    rw [BitVec.toInt_signExtend_of_le (by decide), toInt_disp8_mul v hn (by decide), toInt_disp8_mul v hn (by decide)])

/-- Settles O58: the scaled disp8 is a disp32, and the two operands have one base register. -/
theorem compressedDisplacement : Obligations.CompressedDisplacement := by
  intro i s b v nextpc ps
  have hscale : dispScale i = if scheme i = .vex then 1 else operandBytes i := rfl
  rw [← hscale]
  have hdisp : dispValue (dispScale i) (.disp8 v) =
      dispValue (dispScale i) (.disp32 (v.signExtend 32 * BitVec.ofNat 32 (dispScale i))) :=
    (signExtend_disp8_mul v (dispScale_le i)).symm
  refine ⟨rfl, rfl, rfl, fun _ => rfl, ?_, ?_⟩
  · simp only [State.linearAddress, State.effectiveAddress, State.address64, hdisp]
    rfl
  · simp only [State.linearAddress, State.effectiveAddress, State.address64, indexTerm_four, BitVec.add_zero]
    rfl

/-! ## Faults and the launch state -/

/-- Settles O59: the table's entries. -/
theorem exceptionVectorsAndCodes : Obligations.ExceptionVectorsAndCodes :=
  ⟨rfl, rfl, rfl, rfl, rfl, rfl, rfl, rfl, rfl, rfl, fun _ _ => ⟨rfl, rfl⟩⟩

/-- The bits of a read's fault code (60_exceptions.md R140). -/
theorem faultCode_read_bits (present : Bool) (cpl : BitVec 2) :
    (faultCode present .read cpl).getLsbD 0 = present ∧ (faultCode present .read cpl).getLsbD 1 = false ∧
      ((faultCode present .read cpl).getLsbD 2 = true ↔ cpl = 3#2) ∧ (faultCode present .read cpl).getLsbD 4 = false := by
  revert present cpl
  decide

/-- A read that a region refuses is of an absent page, or a user's of a supervisor page. -/
theorem regionAllows_read_eq_false {r : Region} {cpl : BitVec 2} (h : ¬regionAllows r .read cpl = true)
    (hp : r.present = true) : r.user = false ∧ cpl = 3#2 := by
  simpa [regionAllows, hp] using h

/-- Settles O60: the region that holds the address refuses, and gives the code. -/
theorem pageFaultCodeOfARead : Obligations.PageFaultCodeOfARead := by
  intro s la code h
  rw [State.translate, translateIn] at h
  split at h
  case h_1 => cases h
  case h_2 r hr =>
    split at h
    · cases h
    · rename_i hallow
      cases h
      obtain ⟨h0, h1, h2, h4⟩ := faultCode_read_bits r.present s.cpl
      exact ⟨r, List.mem_of_find?_eq_some hr, List.find?_some (p := fun r => regionHolds r la) hr, h0, h1, h2, h4, regionAllows_read_eq_false hallow⟩

/-- Settles O45: the launch state's fields are given, and without regions the translation is the identity. -/
theorem resetIsTheLaunchState : Obligations.ResetIsTheLaunchState := by
  refine ⟨⟨State.reset_mem_wf, by decide, by decide⟩, by decide, by decide, by decide, by decide, by decide, ?_, rfl, rfl,
    fun _ _ => rfl⟩
  intro f
  cases f <;> decide

end Sys2Proof.Machine
end

section
/-! SUPPORT. The decoder reads an instruction from the front of its bytes and nothing more: what it answered from, and what it answers with other bytes behind (30_encoding.md R68 to R74). -/

namespace Sys2Proof.Machine

open Sys2Proof.Safety

/-! ## Readers -/

/-- `read` takes `v` from the first `n` bytes of `bs` alone and leaves `rest`. -/
def ReadsFront {α : Type} (read : List Byte → Option (α × List Byte)) (bs : List Byte) (n : Nat) (v : α)
    (rest : List Byte) : Prop :=
  ∃ front, bs = front ++ rest ∧ front.length = n ∧ ∀ rest', read (front ++ rest') = some (v, rest')

/-- A reader that applies another one to all its bytes. -/
theorem ReadsFront.map {α β : Type} {read : List Byte → Option (α × List Byte)} {read' : List Byte → Option (β × List Byte)}
    {bs rest : List Byte} {n : Nat} {v : α} {v' : β} (h : ReadsFront read bs n v rest)
    (hread : ∀ bs rest, read bs = some (v, rest) → read' bs = some (v', rest)) : ReadsFront read' bs n v' rest := by
  obtain ⟨front, hbs, hn, hfront⟩ := h
  exact ⟨front, hbs, hn, fun rest' => hread _ _ (hfront rest')⟩

/-- A reader that takes one byte and applies another reader to the bytes after it. -/
theorem ReadsFront.cons {α β : Type} {read : List Byte → Option (α × List Byte)} {read' : List Byte → Option (β × List Byte)}
    {bs rest : List Byte} {n : Nat} {v : α} {v' : β} (h : ReadsFront read bs n v rest) (b : Byte)
    (hread : ∀ bs rest, read bs = some (v, rest) → read' (b :: bs) = some (v', rest)) :
    ReadsFront read' (b :: bs) (1 + n) v' rest := by
  obtain ⟨front, rfl, hn, hfront⟩ := h
  exact ⟨b :: front, rfl, by rw [List.length_cons, hn, Nat.add_comm], fun rest' => hread _ _ (hfront rest')⟩

theorem takeDisp32_readsFront {bs rest : List Byte} {v : BitVec 32} (h : takeDisp32 bs = some (v, rest)) :
    ReadsFront takeDisp32 bs 4 v rest := by
  match bs, h with
  | b0 :: b1 :: b2 :: b3 :: bs, h =>
    cases h
    exact ⟨[b0, b1, b2, b3], rfl, rfl, fun _ => rfl⟩

theorem takeDisp_readsFront {md : BitVec 2} {bs rest : List Byte} {d : Disp} (h : takeDisp md bs = some (d, rest)) :
    ReadsFront (takeDisp md) bs d.size d rest ∧ (d = .absent → md = 0#2) := by
  unfold takeDisp at h
  split_ifs at h with h0 h1
  · cases h
    exact ⟨⟨[], rfl, rfl, fun _ => by simp [takeDisp, h0]⟩, fun _ => h0⟩
  · cases bs with
    | nil => cases h
    | cons b bs =>
      cases h
      exact ⟨⟨[b], rfl, rfl, fun _ => by simp [takeDisp, h1]⟩, fun hd => by cases hd⟩
  · simp only [Option.map_eq_some_iff, Prod.exists, Prod.mk.injEq] at h
    obtain ⟨v, _, hv, rfl, rfl⟩ := h
    refine ⟨(takeDisp32_readsFront hv).map fun _ _ hr => ?_, fun hd => by cases hd⟩
    simp [takeDisp, h0, h1, hr]

/-- The low field of a 4-bit register number. -/
theorem extractLsb'_cons_low (b : Bool) (r : BitVec 3) : (BitVec.cons b r).extractLsb' 0 3 = r := by
  revert b r
  decide

/-- A memory operand that was read is well formed, and was read from as many bytes as it has. -/
theorem takeMem_readsFront {md : BitVec 2} {rm : BitVec 3} {x b : Bool} {bs rest : List Byte} {m : MemOperand}
    (h : takeMem md rm x b bs = some (m, rest)) :
    ReadsFront (takeMem md rm x b) bs m.size m rest ∧ m.wellFormed = true := by
  unfold takeMem at h
  split_ifs at h with h4 h5
  · cases bs with
    | nil => cases h
    | cons sib bs =>
      dsimp only at h
      split_ifs at h with hbase
      · simp only [Option.map_eq_some_iff, Prod.exists, Prod.mk.injEq] at h
        obtain ⟨v, _, hv, rfl, rfl⟩ := h
        refine ⟨(takeDisp32_readsFront hv).cons sib fun _ _ hr => ?_, rfl⟩
        simp [takeMem, h4, hbase, hr]
      · simp only [Option.map_eq_some_iff, Prod.exists, Prod.mk.injEq] at h
        obtain ⟨d, _, hd, rfl, rfl⟩ := h
        obtain ⟨hreads, habsent⟩ := takeDisp_readsFront hd
        refine ⟨hreads.cons sib fun _ _ hr => ?_, ?_⟩
        · simp [takeMem, h4, hbase, hr]
        · simp only [MemOperand.wellFormed, extractLsb'_cons_low, Bool.or_eq_true, bne_iff_ne]
          tauto
  · simp only [Option.map_eq_some_iff, Prod.exists, Prod.mk.injEq] at h
    obtain ⟨v, _, hv, rfl, rfl⟩ := h
    refine ⟨(takeDisp32_readsFront hv).map fun _ _ hr => ?_, rfl⟩
    simp [takeMem, h5, hr]
  · simp only [Option.map_eq_some_iff, Prod.exists, Prod.mk.injEq] at h
    obtain ⟨d, _, hd, rfl, rfl⟩ := h
    obtain ⟨hreads, habsent⟩ := takeDisp_readsFront hd
    refine ⟨hreads.map fun _ _ hr => ?_, ?_⟩
    · simp [takeMem, h4, h5, hr]
    · simp only [MemOperand.wellFormed, extractLsb'_cons_low, Bool.and_eq_true, Bool.or_eq_true, bne_iff_ne]
      tauto

/-- Bytes after ModRM of an r/m operand. -/
def rmSize : RmOperand → Nat
  | .reg _ => 0
  | .mem m => m.size

/-- An r/m operand is expressible when its memory operand is. -/
def rmWellFormed : RmOperand → Bool
  | .reg _ => true
  | .mem m => m.wellFormed

/-- ModRM and its operand are read from their own bytes alone. -/
theorem takeModRM_front {x b : Bool} {bs rest : List Byte} {reg : BitVec 3} {o : RmOperand}
    (h : takeModRM x b bs = some (reg, o, rest)) : rmWellFormed o = true ∧ ∃ front, bs = front ++ rest ∧
      front.length = 1 + rmSize o ∧ ∀ rest', takeModRM x b (front ++ rest') = some (reg, o, rest') := by
  cases bs with
  | nil => cases h
  | cons m bs =>
    unfold takeModRM at h
    dsimp only at h
    split_ifs at h with hmd
    · cases h
      exact ⟨rfl, [m], rfl, rfl, fun _ => by simp [takeModRM, hmd]⟩
    · simp only [Option.map_eq_some_iff, Prod.exists, Prod.mk.injEq] at h
      obtain ⟨o, _, ho, rfl, rfl, rfl⟩ := h
      obtain ⟨⟨front, rfl, hn, hfront⟩, hwf⟩ := takeMem_readsFront ho
      refine ⟨hwf, m :: front, rfl, by rw [List.length_cons, hn, Nat.add_comm]; rfl, fun rest' => ?_⟩
      simp [takeModRM, hmd, hfront]

/-- More bytes behind are left over. -/
theorem takeModRM_append {x b : Bool} {bs rest : List Byte} {reg : BitVec 3} {o : RmOperand}
    (h : takeModRM x b bs = some (reg, o, rest)) (more : List Byte) :
    takeModRM x b (bs ++ more) = some (reg, o, rest ++ more) := by
  obtain ⟨-, front, rfl, -, hfront⟩ := takeModRM_front h
  rw [List.append_assoc, hfront]

/-- Whatever is made of what was read, the same bytes are left. -/
theorem exists_map_of_map {α β γ : Type} {o : Option (α × List Byte)} {f : α → β} {v : β} {rest : List Byte}
    (h : (o.map fun (a, bs) => (f a, bs)) = some (v, rest)) (g : α → γ) :
    ∃ w, (o.map fun (a, bs) => (g a, bs)) = some (w, rest) := by
  cases o with
  | none => cases h
  | some p => cases h; exact ⟨_, rfl⟩

/-- The extension bits number registers; they do not decide how many bytes of a memory operand are read. -/
theorem takeMem_extension {md : BitVec 2} {rm : BitVec 3} {x b : Bool} {bs rest : List Byte} {m : MemOperand}
    (h : takeMem md rm x b bs = some (m, rest)) (x' b' : Bool) : ∃ m', takeMem md rm x' b' bs = some (m', rest) := by
  unfold takeMem at h ⊢
  split_ifs at h ⊢ with h4 h5
  · cases bs with
    | nil => cases h
    | cons sib bs =>
      dsimp only at h ⊢
      split_ifs at h ⊢
      · exact exists_map_of_map h _
      · exact exists_map_of_map h _
  · exact ⟨_, h⟩
  · exact exists_map_of_map h _

/-- Nor how many bytes of ModRM and its operand. -/
theorem takeModRM_extension {x b : Bool} {bs rest : List Byte} {reg : BitVec 3} {o : RmOperand}
    (h : takeModRM x b bs = some (reg, o, rest)) (x' b' : Bool) :
    ∃ o', takeModRM x' b' bs = some (reg, o', rest) := by
  cases bs with
  | nil => cases h
  | cons m bs =>
    unfold takeModRM at h ⊢
    dsimp only at h ⊢
    split_ifs at h ⊢ with hmd
    · cases h
      exact ⟨_, rfl⟩
    · simp only [Option.map_eq_some_iff, Prod.exists, Prod.mk.injEq] at h
      obtain ⟨m, _, hm, rfl, -, rfl⟩ := h
      obtain ⟨m', hm'⟩ := takeMem_extension hm x' b'
      exact ⟨.mem m', by rw [hm']; rfl⟩

end Sys2Proof.Machine
end

section
/-! SUPPORT. What the decoder answered from: the bytes of a decoded instruction, and the answer with more bytes behind (30_encoding.md R60, R74). -/

namespace Sys2Proof.Machine

open Sys2Proof.Safety

/-! ## Legacy bytes in front -/

/-- Only its own byte is read as an allowed one. -/
theorem byte_of_frontByte_allowed {mode64 : Bool} {b : Byte} {p : LegacyPrefix} (h : frontByte mode64 b = .allowed p) :
    b = p.byte := by
  unfold frontByte at h
  split_ifs at h with h1 h2 h3 h4 h5 h6 h7 <;> cases h <;> assumption

/-- Without a forbidden byte the bytes in front are the legacy bytes that were read. -/
theorem eq_append_of_scanFront {mode64 : Bool} {bytes : List Byte} (h : (scanFront mode64 bytes).bad = false) :
    bytes = (scanFront mode64 bytes).ps.map LegacyPrefix.byte ++ (scanFront mode64 bytes).rest := by
  induction bytes with
  | nil => rfl
  | cons b bs ih =>
    unfold scanFront at h ⊢
    split at h
    case h_1 p hp => simpa [byte_of_frontByte_allowed hp] using ih h
    case h_2 => cases h
    case h_3 => rfl

/-- Where an escape was found, more bytes behind stay behind it. -/
theorem scanFront_append {mode64 : Bool} {bytes : List Byte} (h : (scanFront mode64 bytes).rest ≠ []) (more : List Byte) :
    scanFront mode64 (bytes ++ more) = { scanFront mode64 bytes with rest := (scanFront mode64 bytes).rest ++ more } := by
  induction bytes with
  | nil => exact absurd rfl h
  | cons b bs ih =>
    rw [List.cons_append]
    unfold scanFront at h ⊢
    split at h
    case h_1 => simp only [ih h]
    case h_2 => simp only [ih h]
    case h_3 => rfl

/-- Bytes of which none is an escape are read in front of the first escape, and a forbidden one among them is noticed. -/
theorem scanFront_front {mode64 : Bool} {front : List Byte} {e : Byte} (bs : List Byte)
    (hf : ∀ b ∈ front, frontByte mode64 b ≠ .other) (he : frontByte mode64 e = .other) :
    (scanFront mode64 (front ++ e :: bs)).rest = e :: bs ∧
      ((∃ b ∈ front, frontByte mode64 b = .forbidden) → (scanFront mode64 (front ++ e :: bs)).bad = true) := by
  induction front with
  | nil => simp [scanFront, he]
  | cons b front ih =>
    obtain ⟨hb, hfront⟩ := List.forall_mem_cons.1 hf
    obtain ⟨hrest, hbad⟩ := ih hfront
    simp only [List.cons_append, scanFront, List.exists_mem_cons_iff]
    cases hfb : frontByte mode64 b with
    | allowed p => exact ⟨hrest, fun h => hbad (h.resolve_left (by simp))⟩
    | forbidden => exact ⟨hrest, fun _ => rfl⟩
    | other => exact absurd hfb hb

/-! ## More bytes behind -/

/-- An answer with more bytes behind the instruction. -/
def appendRest (more : List Byte) : Decoded → Decoded
  | .instr i rest => .instr i (rest ++ more)
  | .undefinedOpcode => .undefinedOpcode
  | .notThisFamily => .notThisFamily
  | .incomplete => .incomplete

theorem answer_append (bad reserved : Bool) (row : Option Instr) (rest more : List Byte) :
    appendRest more (answer bad reserved row rest) = answer bad reserved row (rest ++ more) := by
  cases row <;> cases bad <;> cases reserved <;> rfl

/-- Bytes that decide the answer of a VEX escape decide it with more bytes behind. -/
theorem decodeVex_append {mode64 : Bool} {ps : List LegacyPrefix} {bad : Bool} {bs : List Byte}
    (h : decodeVex mode64 ps bad bs ≠ .incomplete) (more : List Byte) :
    decodeVex mode64 ps bad (bs ++ more) = appendRest more (decodeVex mode64 ps bad bs) := by
  match bs with
  | [] => exact absurd rfl h
  | b1 :: bs =>
    simp only [List.cons_append, decodeVex] at h ⊢
    split_ifs at h ⊢ with hmode hmap
    · rfl
    · rfl
    · match bs with
      | [] => exact absurd rfl h
      | b2 :: bs =>
        simp only [List.cons_append] at h ⊢
        split_ifs at h ⊢ with hpp
        · rfl
        · match bs with
          | [] => exact absurd rfl h
          | op :: bs =>
            simp only [List.cons_append] at h ⊢
            split_ifs at h ⊢ with hop
            · rfl
            · cases htake : takeModRM (!b1.getLsbD 6) (mode64 && !b1.getLsbD 5) bs with
              | none => rw [htake] at h; exact absurd rfl h
              | some r => simp only [takeModRM_append htake, answer_append]

/-- Bytes that decide the answer of an EVEX escape decide it with more bytes behind. -/
theorem decodeEvex_append {ps : List LegacyPrefix} {bad : Bool} {bs : List Byte}
    (h : decodeEvex ps bad bs ≠ .incomplete) (more : List Byte) :
    decodeEvex ps bad (bs ++ more) = appendRest more (decodeEvex ps bad bs) := by
  match bs with
  | [] => exact absurd rfl h
  | p0 :: bs =>
    simp only [List.cons_append, decodeEvex] at h ⊢
    split_ifs at h ⊢ with hmap
    · rfl
    · match bs with
      | [] => exact absurd rfl h
      | p1 :: bs =>
        simp only [List.cons_append] at h ⊢
        split_ifs at h ⊢ with hpp
        · rfl
        · match bs with
          | [] => exact absurd rfl h
          | [_] => exact absurd rfl h
          | p2 :: op :: bs =>
            simp only [List.cons_append] at h ⊢
            split_ifs at h ⊢ with hop
            · rfl
            · cases htake : takeModRM (!p0.getLsbD 6) (!p0.getLsbD 5) bs with
              | none => rw [htake] at h; exact absurd rfl h
              | some r => simp only [takeModRM_append htake, answer_append]

/-- Bytes that decide an answer decide it with more bytes behind. -/
theorem decodeIn_append {mode64 : Bool} {bytes : List Byte} (h : decodeIn mode64 bytes ≠ .incomplete) (more : List Byte) :
    decodeIn mode64 (bytes ++ more) = appendRest more (decodeIn mode64 bytes) := by
  rw [decodeIn_eq_decodeEscape] at h
  rw [decodeIn_eq_decodeEscape, decodeIn_eq_decodeEscape]
  cases hrest : (scanFront mode64 bytes).rest with
  | nil => rw [hrest] at h; exact absurd rfl h
  | cons e bs =>
    rw [scanFront_append (by simp [hrest])]
    simp only [hrest, List.cons_append, decodeEscape] at h ⊢
    split_ifs at h ⊢ with hvex hevex
    · exact decodeVex_append h more
    · exact decodeEvex_append h more
    · rfl

/-! ## The bytes of a decoded instruction -/

theorem answer_eq_instr_iff {bad reserved : Bool} {row : Option Instr} {rest rest' : List Byte} {i : Instr} :
    answer bad reserved row rest = .instr i rest' ↔ bad = false ∧ reserved = false ∧ row = some i ∧ rest = rest' := by
  cases row <;> cases bad <;> cases reserved <;> simp [answer]

/-- A VEX row has the length and the operand shape of its r/m operand. -/
theorem vexRow_eq_some {op : Byte} {l : Bool} {ps : List LegacyPrefix} {d : BitVec 4} {b : Bool} {o : RmOperand} {i : Instr}
    (h : vexRow op l ps d b o = some i) (ho : rmWellFormed o = true) :
    i.length = vexLength ps (rmSize o) ∧ i.operandsWellFormed = true := by
  cases o with
  | mem m =>
    simp only [vexRow] at h
    split_ifs at h <;> cases h <;> exact ⟨rfl, ho⟩
  | reg rm =>
    simp only [vexRow] at h
    split_ifs at h <;> cases h <;> exact ⟨rfl, rfl⟩

/-- An EVEX row of opcode 18H or 19H has the length and the operand shape of its source. -/
theorem evexSourceRow_eq_some {op : Byte} {w : Bool} {ll : BitVec 2} {ps : List LegacyPrefix} {d : BitVec 5} {k : Masking}
    {src : Source} {i : Instr} (h : evexSourceRow op w ll ps d k src = some i) :
    i.length = evexLength ps src.size ∧ i.operandsWellFormed = (k.wellFormed && src.wellFormed) := by
  unfold evexSourceRow at h
  split_ifs at h <;> cases h <;> exact ⟨rfl, rfl⟩

/-- An EVEX row of opcode 1AH or 1BH has the length and the operand shape of its memory operand. -/
theorem evexMemRow_eq_some {op : Byte} {w : Bool} {ll : BitVec 2} {ps : List LegacyPrefix} {d : BitVec 5} {k : Masking}
    {m : MemOperand} {i : Instr} (h : evexMemRow op w ll ps d k m = some i) :
    i.length = evexLength ps m.size ∧ i.operandsWellFormed = (k.wellFormed && m.wellFormed) := by
  unfold evexMemRow at h
  split_ifs at h <;> cases h <;> exact ⟨rfl, rfl⟩

/-- An EVEX row has the length and the operand shape of its r/m operand. -/
theorem evexRow_eq_some {op : Byte} {w : Bool} {ll : BitVec 2} {ps : List LegacyPrefix} {d : BitVec 5} {k : Masking}
    {x b : Bool} {o : RmOperand} {i : Instr} (h : evexRow op w ll ps d k x b o = some i) :
    i.length = evexLength ps (rmSize o) ∧ i.operandsWellFormed = (k.wellFormed && rmWellFormed o) := by
  cases o with
  | reg rm => exact evexSourceRow_eq_some h
  | mem m =>
    simp only [evexRow] at h
    split_ifs at h
    · exact evexSourceRow_eq_some h
    · exact evexMemRow_eq_some h

/-- An encoding whose fixed fields are right has well-formed masking fields (30_encoding.md R81). -/
theorem masking_wellFormed_of_evexReserved {p1 p2 : Byte} (h : evexReserved p1 p2 = false) :
    Masking.wellFormed ⟨p2.extractLsb' 0 3, p2.getLsbD 7⟩ = true := by
  simp only [evexReserved, Bool.or_eq_false_iff] at h
  obtain ⟨⟨⟨-, hz⟩, -⟩, -⟩ := h
  rw [Masking.wellFormed, hz]
  rfl

/-- An instruction decoded after a VEX escape: its operands are well formed, and its bytes alone decide it. -/
theorem decodeVex_eq_instr {mode64 : Bool} {ps : List LegacyPrefix} {bad : Bool} {bs rest : List Byte} {i : Instr}
    (h : decodeVex mode64 ps bad bs = .instr i rest) : bad = false ∧ i.operandsWellFormed = true ∧
      ∃ body, bs = body ++ rest ∧ ps.length + 1 + body.length = i.length ∧
        ∀ rest', decodeVex mode64 ps bad (body ++ rest') = .instr i rest' := by
  match bs with
  | [] => cases h
  | [b1] =>
    simp only [decodeVex] at h
    split_ifs at h
  | [b1, b2] =>
    simp only [decodeVex] at h
    split_ifs at h
  | b1 :: b2 :: op :: operand =>
    simp only [decodeVex] at h
    split_ifs at h with hmode hmap hpp hop
    cases htake : takeModRM (!b1.getLsbD 6) (mode64 && !b1.getLsbD 5) operand with
    | none => rw [htake] at h; cases h
    | some r =>
      obtain ⟨reg, o, rest₀⟩ := r
      simp only [htake] at h
      obtain ⟨hbad, hres, hrow, rfl⟩ := answer_eq_instr_iff.1 h
      obtain ⟨ho, front, rfl, hn, hfront⟩ := takeModRM_front htake
      obtain ⟨hlen, hwf⟩ := vexRow_eq_some hrow ho
      refine ⟨hbad, hwf, b1 :: b2 :: op :: front, rfl, ?_, fun rest' => ?_⟩
      · simp only [hlen, vexLength, List.length_cons, hn]
        omega
      · rw [List.cons_append, List.cons_append, List.cons_append, decodeVex_of_take ps bad (by tauto) (by tauto) (by tauto)
          (by tauto) (hfront rest')]
        exact answer_eq_instr_iff.2 ⟨hbad, hres, hrow, rfl⟩

/-- An instruction decoded after an EVEX escape: its operands are well formed, and its bytes alone decide it. -/
theorem decodeEvex_eq_instr {ps : List LegacyPrefix} {bad : Bool} {bs rest : List Byte} {i : Instr}
    (h : decodeEvex ps bad bs = .instr i rest) : bad = false ∧ i.operandsWellFormed = true ∧
      ∃ body, bs = body ++ rest ∧ ps.length + 1 + body.length = i.length ∧
        ∀ rest', decodeEvex ps bad (body ++ rest') = .instr i rest' := by
  match bs with
  | [] => cases h
  | [p0] =>
    simp only [decodeEvex] at h
    split_ifs at h
  | [p0, p1] =>
    simp only [decodeEvex] at h
    split_ifs at h
  | [p0, p1, p2] =>
    simp only [decodeEvex] at h
    split_ifs at h
  | p0 :: p1 :: p2 :: op :: operand =>
    simp only [decodeEvex] at h
    split_ifs at h with hmap hpp hop
    cases htake : takeModRM (!p0.getLsbD 6) (!p0.getLsbD 5) operand with
    | none => rw [htake] at h; cases h
    | some r =>
      obtain ⟨reg, o, rest₀⟩ := r
      simp only [htake] at h
      obtain ⟨hbad, hres, hrow, rfl⟩ := answer_eq_instr_iff.1 h
      obtain ⟨ho, front, rfl, hn, hfront⟩ := takeModRM_front htake
      obtain ⟨hlen, hwf⟩ := evexRow_eq_some hrow
      refine ⟨hbad, ?_, p0 :: p1 :: p2 :: op :: front, rfl, ?_, fun rest' => ?_⟩
      · rw [hwf, masking_wellFormed_of_evexReserved hres, ho]
        rfl
      · simp only [hlen, evexLength, List.length_cons, hn]
        omega
      · rw [List.cons_append, List.cons_append, List.cons_append, List.cons_append,
          decodeEvex_of_take ps bad (by tauto) (by tauto) (by tauto) (hfront rest')]
        exact answer_eq_instr_iff.2 ⟨hbad, hres, hrow, rfl⟩

/-- Settles O24: the legacy bytes are those that were read, and the escape's part by `decodeVex_eq_instr` and `decodeEvex_eq_instr`. -/
theorem decodedInstructionsAreWellFormed : Obligations.DecodedInstructionsAreWellFormed := by
  intro bytes i rest h
  rw [decode, decodeIn_eq_decodeEscape] at h
  have hbytes := eq_append_of_scanFront (mode64 := true) (bytes := bytes)
  generalize scanFront true bytes = f at h hbytes
  obtain ⟨ps, bad, after⟩ := f
  dsimp only at h hbytes
  cases after with
  | nil => cases h
  | cons e bs =>
    simp only [decodeEscape] at h
    split_ifs at h with hvex hevex
    · obtain ⟨hbad, hwf, body, rfl, hn, hbody⟩ := decodeVex_eq_instr h
      subst hvex hbad
      refine ⟨hwf, ps.map LegacyPrefix.byte ++ 0xC4#8 :: body, by simp [hbytes rfl], ?_, fun rest' => ?_⟩
      · simp only [List.length_append, List.length_map, List.length_cons]
        omega
      · rw [List.append_assoc, List.cons_append, decode, decodeIn_vex, hbody]
    · obtain ⟨hbad, hwf, body, rfl, hn, hbody⟩ := decodeEvex_eq_instr h
      subst hevex hbad
      refine ⟨hwf, ps.map LegacyPrefix.byte ++ 0x62#8 :: body, by simp [hbytes rfl], ?_, fun rest' => ?_⟩
      · simp only [List.length_append, List.length_map, List.length_cons]
        omega
      · rw [List.append_assoc, List.cons_append, decode, decodeIn_evex, hbody]

end Sys2Proof.Machine
end

section
/-! SUPPORT. What a step does with the bytes at `pc`: encoded forms in every mode, forms cut off, reserved encodings, forbidden bytes in front and bytes outside the family (30_encoding.md R61, R63, R74, R77 to R83, 60_exceptions.md R145, R152). -/

namespace Sys2Proof.Machine

open Sys2Proof.Safety

/-! ## Encoded forms -/

theorem encode_length (i : Instr) : (encode i).length = i.length := by
  cases i <;> simp [encode, Instr.length, vexRegFields]

theorem length_ge_five (i : Instr) : 5 ≤ i.length := by
  cases i <;> simp only [Instr.length, vexLength, evexLength] <;> omega

/-- Settles O21: nothing is wrapped around the decoded instruction. -/
theorem stepRunsDecodedInstruction : Obligations.StepRunsDecodedInstruction := by
  intro s i rest hm h
  rw [step_of_decode s hm, h]

/-- A step that answers a next state ran the instruction that the bytes at `pc` decode to. -/
theorem decode_of_step_next {s t : State} (h : step s = .next t) :
    ∃ i rest, decode (codeBytes s) = .instr i rest ∧ exec i s = .next t := by
  obtain ⟨hm, -⟩ := onlyEnabledStatesRun s t h
  rw [step_of_decode s hm] at h
  split at h
  case h_1 i rest hd => exact ⟨i, rest, hd, h⟩
  case h_2 => cases h
  case h_3 => cases h
  case h_4 =>
    split at h
    case h_1 stop _ => cases stop <;> cases h
    case h_2 => cases h

theorem fetchWindow_length_le (s : State) (n : Nat) : ∀ la : Word64, (s.fetchWindow n la).1.length ≤ n := by
  induction n with
  | zero => exact fun _ => Nat.le_refl 0
  | succ n ih =>
    intro la
    unfold State.fetchWindow
    cases s.fetchByte la with
    | error stop => exact Nat.zero_le _
    | ok b => exact Nat.succ_le_succ (ih _)

theorem codeBytes_length_le (s : State) : (codeBytes s).length ≤ maxLength := fetchWindow_length_le s maxLength s.pc

theorem fetchWindow_fst (s : State) : (s.fetchWindow maxLength s.pc).1 = codeBytes s := rfl

/-- A proper beginning of an encoding decides no answer. -/
theorem decode_take_encode {i : Instr} (hwf : i.operandsWellFormed = true) {n : Nat} (hn : n < i.length) :
    decode ((encode i).take n) = .incomplete := by
  by_contra h
  have happend := decodeIn_append h ((encode i).drop n)
  have hfull := decode_encode hwf []
  rw [List.append_nil, decode] at hfull
  rw [List.take_append_drop, hfull] at happend
  cases hd : decodeIn true ((encode i).take n) with
  | instr j rest =>
    rw [hd] at happend
    simp only [appendRest, Decoded.instr.injEq, List.nil_eq, List.append_eq_nil_iff, List.drop_eq_nil_iff,
      encode_length] at happend
    omega
  | undefinedOpcode => rw [hd] at happend; cases happend
  | notThisFamily => rw [hd] at happend; cases happend
  | incomplete => exact h hd

/-- Settles O33: the fifteen bytes decide no answer, and all of them were fetched. -/
theorem longInstructionsRaiseGp : Obligations.LongInstructionsRaiseGp := by
  intro s i hm hwf hlen hc
  have hfull : (s.fetchWindow maxLength s.pc).1.length = maxLength := by
    rw [fetchWindow_fst, hc, List.length_take, encode_length]
    omega
  rw [step_of_decode s hm, hc, decode_take_encode hwf hlen, s.fetchWindow_full _ _ hfull]

/-- Settles O34: the bytes decide no answer, and the window ends at the byte that cannot be fetched. -/
theorem fetchStopsWhereAByteCannotBeFetched : Obligations.FetchStopsWhereAByteCannotBeFetched := by
  intro s i n stop hm hwf hn hc hstop
  obtain ⟨hop, hlen⟩ := (wellFormed_iff i).1 hwf
  have hwindow : (s.fetchWindow maxLength s.pc).1.length = n := by
    rw [fetchWindow_fst, hc, List.length_take, encode_length]
    omega
  obtain ⟨stop', hsnd, hstop'⟩ := s.fetchWindow_short maxLength s.pc (by omega)
  rw [hwindow, hstop] at hstop'
  cases hstop'
  rw [step_of_decode s hm, hc, decode_take_encode hop hn, hsnd]

/-! ## Other modes -/

theorem mode_eq_bits64_of_rule_undefinedOpcode {s : State} (h : s.mode.rule = .undefinedOpcode) :
    (s.mode == .bits64) = false := by
  rcases (rule_undefinedOpcode_iff _).1 h with hm | hm <;> rw [hm] <;> rfl

/-- Bytes outside the family are refused in every mode in which bytes are fetched. -/
theorem step_of_notThisFamily {s : State} (hr : s.mode.rule ≠ .refused)
    (h : decodeIn (s.mode == .bits64) (codeBytes s) = .notThisFamily) : step s = .refused .notThisFamily := by
  have hf : s.fetchInstr = refuse .notThisFamily := by
    unfold State.fetchInstr
    split
    case h_1 he => exact absurd he hr
    case h_2 => simp only [fetchWindow_fst, h]
  rw [step, hf]
  rfl

/-- Where every form is undefined, an instruction that was read whole raises #UD. -/
theorem step_ud_of_answer {s : State} (hr : s.mode.rule = .undefinedOpcode) {bad reserved : Bool} {row : Option Instr}
    {rest : List Byte} (h : decodeIn false (codeBytes s) = answer bad reserved row rest) : step s = .fault .ud := by
  have hfetch : s.fetchInstr = raise .ud ∨ ∃ i, s.fetchInstr = .ok i := by
    unfold State.fetchInstr
    rw [hr, mode_eq_bits64_of_rule_undefinedOpcode hr]
    simp only [fetchWindow_fst, h, answer]
    split_ifs
    · exact .inl rfl
    · cases row with
      | none => exact .inl rfl
      | some i => exact .inr ⟨i, rfl⟩
  rcases hfetch with hf | ⟨i, hf⟩
  · rw [step, hf]
    rfl
  · rw [step, hf]
    exact exec_of_rule_undefinedOpcode hr

/-- The escape's bytes of a VEX form, and the R and X they hold. -/
theorem escapeBytes_of_vex {i : Instr} (hi : scheme i = .vex) (hwf : i.operandsWellFormed = true) :
    ∃ l op d f, escapeBytes i = vexEscape l op d f ∧ (op = 0x18#8 ∨ op = 0x19#8 ∨ op = 0x1A#8) ∧
      extendsRX i = (d.getLsbD 3 || f.x) ∧ ∀ reg rest, ∃ o,
        takeModRM f.x f.b (fieldsByte f.md reg f.rm :: (f.tail ++ rest)) = some (reg, o, rest) := by
  cases i with
  | vexSsXmmMem _ d m | vexSsYmmMem _ d m | vexSdYmmMem _ d m | vexF128YmmMem _ d m =>
    exact ⟨_, _, d, m.fields, drop_encodeVex .., by decide, by simp [extendsRX, destination, sourceOf],
      fun reg rest => ⟨_, takeModRM_mem m reg rest hwf⟩⟩
  | vexSsXmmReg _ d r | vexSsYmmReg _ d r | vexSdYmmReg _ d r =>
    exact ⟨_, _, d, vexRegFields r, drop_encodeVex .., by decide,
      by simp [extendsRX, destination, sourceOf, vexRegFields], fun reg rest => ⟨_, takeModRM_reg _ _ reg _ rest⟩⟩
  | _ => cases hi

/-- The escape of an EVEX form is read alike in every mode (log 21). -/
theorem decodeEscape_of_evex {i : Instr} (hi : scheme i = .evex) (ps : List LegacyPrefix) (bad : Bool) (rest : List Byte) :
    decodeEscape false ps bad (escapeBytes i ++ rest) = decodeEscape true ps bad (escapeBytes i ++ rest) := by
  have hbytes : ∃ bs, escapeBytes i = 0x62#8 :: bs := by
    cases i with
    | evexSdYmm | evexSdZmm | evexF32x2Ymm | evexF32x2Zmm | evexSsXmm | evexSsYmm | evexSsZmm | evexF32x4Ymm
    | evexF32x4Zmm | evexF64x2Ymm | evexF64x2Zmm | evexF32x8Zmm | evexF64x4Zmm => exact ⟨_, drop_encodeEvex ..⟩
    | _ => cases hi
  obtain ⟨bs, hbs⟩ := hbytes
  rw [hbs]
  rfl

theorem vexByte1_inverted_rx (r x b : Bool) : (vexByte1 r x b).extractLsb' 6 2 = 3#2 ↔ (r || x) = false := by
  revert r x b
  decide

/-- Outside 64-bit mode VEX bytes with R = 1 or X = 1 are another instruction, and the others are read whole (30_encoding.md R63). -/
theorem decodeIn_false_encode_vex {i : Instr} (hi : scheme i = .vex) (hwf : i.operandsWellFormed = true) (rest : List Byte) :
    if extendsRX i = true then decodeIn false (encode i ++ rest) = .notThisFamily
    else ∃ reserved row, decodeIn false (encode i ++ rest) = answer false reserved row rest := by
  obtain ⟨l, op, d, f, hbytes, hop, hrx, htake⟩ := escapeBytes_of_vex hi hwf
  obtain ⟨hmap, -, hx, -⟩ := vexByte1_fields (d.getLsbD 3) f.x f.b
  obtain ⟨hpp, -, -, -⟩ := vexByte2_fields l
  rw [encode_eq_append, List.append_assoc, hbytes, hrx]
  simp only [vexEscape, List.cons_append]
  split_ifs with h
  · refine decodeIn_vex_other _ _ _ fun h3 => ?_
    rw [(vexByte1_inverted_rx _ _ _).1 h3] at h
    cases h
  · obtain ⟨o, ho⟩ := htake (d.extractLsb' 0 3) rest
    obtain ⟨o', ho'⟩ := takeModRM_extension ho f.x false
    rw [decodeIn_vex, decodeVex_of_take _ _ (fun _ => (vexByte1_inverted_rx _ _ _).2 (by simpa using h)) hmap hpp hop
      (by simpa only [hx, Bool.not_not, Bool.false_and] using ho')]
    exact ⟨_, _, rfl⟩

/-- Settles O22: in 64-bit mode by `decode_encode`, in the #UD modes by what the escape's bytes are there, in the refused modes nothing is fetched. -/
theorem stepRunsEncodedInstruction : Obligations.StepRunsEncodedInstruction := by
  intro s i rest hwf hc
  obtain ⟨hop, -⟩ := (wellFormed_iff i).1 hwf
  refine ⟨fun hm => stepRunsDecodedInstruction s i rest hm (hc ▸ decode_encode hop rest), fun hm => ?_,
    step_of_rule_refused⟩
  have hr := (rule_undefinedOpcode_iff _).2 hm
  cases hi : scheme i with
  | vex =>
    have hdec := decodeIn_false_encode_vex hi hop rest
    rw [← hc] at hdec
    split_ifs at hdec with hrx
    · rw [if_pos ⟨rfl, hrx⟩]
      exact step_of_notThisFamily (by rw [hr]; decide) (by rwa [mode_eq_bits64_of_rule_undefinedOpcode hr])
    · obtain ⟨reserved, row, hdec⟩ := hdec
      rw [if_neg fun h => hrx h.2]
      exact step_ud_of_answer hr hdec
  | evex =>
    obtain ⟨row, hdec, -⟩ := decodeEscape_escapeBytes hop (legacyPrefixes i) false rest
    have hdec' : decodeIn false (codeBytes s) = answer false false row rest := by
      rw [hc, encode_eq_append, List.append_assoc, decodeIn_legacy_append_escapeBytes, decodeEscape_of_evex hi, hdec]
    rw [if_neg (by simp)]
    exact step_ud_of_answer hr hdec'

/-! ## Reserved encodings and forbidden bytes -/

/-- VEX.W = 1 is a wrong fixed field (30_encoding.md R80). -/
theorem vexBytesRaiseUd_of_w {b2 op : Byte} (hw : b2.getLsbD 7 = true) : VexBytesRaiseUd b2 op false := by
  intro s ps b1 operand hm hc hsp _
  exact step_ud_of_vexSpace hm hc hsp (.inl (by simp only [hw, Bool.or_true]))

/-- EVEX.W = 1 has no row on opcode 18H (30_encoding.md R80). -/
theorem evexRow_18_w (ll : BitVec 2) (ps : List LegacyPrefix) (d : BitVec 5) (k : Masking) (x b : Bool) (o : RmOperand) :
    evexRow 0x18#8 true ll ps d k x b o = none := by
  cases o <;> rfl

/-- Settles O29: each value is a wrong fixed field, or has no row. -/
theorem unassignedFieldValuesRaiseUd : Obligations.UnassignedFieldValuesRaiseUd := by
  refine ⟨fun b2 op hw => vexBytesRaiseUd_of_w hw, fun p1 ll hw => ?_, fun s ps p0 p1 p2 op operand hm hc hsp h => ?_⟩
  · intro s ps p0 p2 operand hm hc hsp _ _
    exact step_ud_of_evexSpace hm hc hsp (.inr (by rw [hw]; exact evexRow_18_w _ ps))
  · refine step_ud_of_evexSpace hm hc hsp (.inl ?_)
    simp only [evexReserved, Bool.or_eq_true, Bool.and_eq_true, Bool.not_eq_true', beq_iff_eq]
    tauto

/-- Opcodes 1AH and 1BH have no EVEX row with a register operand (30_encoding.md R83). -/
theorem evexRow_reg_none {op : Byte} (hop : op = 0x1A#8 ∨ op = 0x1B#8) (w : Bool) (ll : BitVec 2) (ps : List LegacyPrefix)
    (d : BitVec 5) (k : Masking) (x b : Bool) (rm : BitVec 3) : evexRow op w ll ps d k x b (.reg rm) = none := by
  rcases hop with rfl | rfl <;> rfl

/-- A register operand on EVEX opcodes 1AH and 1BH raises #UD at every W and L'L. -/
theorem evexBytesRaiseUd_reg {op : Byte} (hop : op = 0x1A#8 ∨ op = 0x1B#8) (p1 : Byte) (ll : BitVec 2) :
    EvexBytesRaiseUd p1 op ll true := by
  intro s ps p0 p2 operand hm hc ⟨hmap, hpp, hop', hsome⟩ _ hreg
  obtain ⟨⟨reg, o, rest⟩, htake⟩ := Option.isSome_iff_exists.1 hsome
  obtain ⟨rm, rfl⟩ := takeModRM_registerOperand htake (hreg rfl)
  have hud : decode (codeBytes s) = .undefinedOpcode := by
    rw [hc, decode, decodeIn_evex, decodeEvex_of_take ps false hmap hpp hop' htake, evexRow_reg_none hop, answer_none]
  rw [step_of_decode s hm, hud]

/-- Settles O30: `evexBytesRaiseUd_reg` for both opcodes. -/
theorem evexRegisterSourceRaisesUd : Obligations.EvexRegisterSourceRaisesUd :=
  fun p1 ll => ⟨evexBytesRaiseUd_reg (.inl rfl) p1 ll, evexBytesRaiseUd_reg (.inr rfl) p1 ll⟩

/-- A forbidden byte in front of a form is noticed, and the form is read whole. -/
theorem forbiddenFrontStops (i : Instr) : ForbiddenFrontStops i := by
  intro s front rest hm hwf hc hfront hbad
  obtain ⟨e, bs, hbytes, he⟩ := escapeBytes_eq_cons i true
  have hall : ∀ b ∈ front ++ (legacyPrefixes i).map LegacyPrefix.byte, frontByte true b ≠ .other := by
    intro b hb
    rcases List.mem_append.1 hb with hb | hb
    · exact hfront b hb
    · obtain ⟨p, -, rfl⟩ := List.mem_map.1 hb
      rw [frontByte_byte]
      simp
  have hc' : codeBytes s = front ++ (legacyPrefixes i).map LegacyPrefix.byte ++ e :: (bs ++ rest) := by
    rw [hc, encode_eq_append, hbytes]
    simp only [List.append_assoc, List.cons_append]
  obtain ⟨hrest, hnoticed⟩ := scanFront_front (bs ++ rest) hall he
  rw [← hc'] at hrest hnoticed
  obtain ⟨row, hdec, -⟩ := decodeEscape_escapeBytes hwf (scanFront true (codeBytes s)).ps true rest
  have hud : decode (codeBytes s) = .undefinedOpcode := by
    obtain ⟨b, hb, hf⟩ := hbad
    rw [decode, decodeIn_eq_decodeEscape, hnoticed ⟨b, List.mem_append_left _ hb, hf⟩, hrest, ← List.cons_append, ← hbytes,
      hdec]
    exact (answer_undefinedOpcode_iff ..).2 (.inl rfl)
  rw [step_of_decode s hm, hud]

/-- Settles O31: `forbiddenFrontStops` for every form. -/
theorem forbiddenFrontBytesRaiseUd : Obligations.ForbiddenFrontBytesRaiseUd := forbiddenFrontStops

/-! ## Bytes outside the family -/

theorem decodeIn_other_escape {mode64 : Bool} (ps : List LegacyPrefix) {e : Byte} (bs : List Byte)
    (he : frontByte mode64 e = .other) (hvex : e ≠ 0xC4#8) (hevex : e ≠ 0x62#8) :
    decodeIn mode64 (ps.map LegacyPrefix.byte ++ e :: bs) = .notThisFamily := by
  rw [decodeIn_eq_decodeEscape, scanFront_bytes mode64 ps e bs he]
  simp only [decodeEscape, hvex, hevex, if_false]

theorem decodeVex_other {mode64 : Bool} (ps : List LegacyPrefix) (bad : Bool) {b1 b2 op : Byte} (bs : List Byte)
    (h : b1.extractLsb' 0 5 ≠ 2#5 ∨ b2.extractLsb' 0 2 ≠ 1#2 ∨ (op ≠ 0x18#8 ∧ op ≠ 0x19#8 ∧ op ≠ 0x1A#8)) :
    decodeVex mode64 ps bad (b1 :: b2 :: op :: bs) = .notThisFamily := by
  simp only [decodeVex]
  split_ifs <;> tauto

theorem decodeEvex_other (ps : List LegacyPrefix) (bad : Bool) {p0 p1 p2 op : Byte} (bs : List Byte)
    (h : p0.extractLsb' 0 4 ≠ 2#4 ∨ p1.extractLsb' 0 2 ≠ 1#2 ∨
      (op ≠ 0x18#8 ∧ op ≠ 0x19#8 ∧ op ≠ 0x1A#8 ∧ op ≠ 0x1B#8)) :
    decodeEvex ps bad (p0 :: p1 :: p2 :: op :: bs) = .notThisFamily := by
  simp only [decodeEvex]
  split_ifs <;> tauto

/-- Settles O32: another escape, another map, pp or opcode, and outside 64-bit mode the non-VEX bytes of R63. -/
theorem bytesOutsideTheFamilyAreRefused : Obligations.BytesOutsideTheFamilyAreRefused := by
  refine ⟨fun s ps bytes hm hc h => step_of_notThisFamily ?_ ?_, fun s ps b1 rest hm hc h => ?_⟩
  · rcases hm with hm | hm | hm <;> rw [hm] <;> decide
  · rw [hc]
    rcases h with ⟨e, rest, rfl, he, hvex, hevex⟩ | ⟨b1, b2, op, rest, rfl, h⟩ | ⟨p0, p1, p2, op, rest, rfl, h⟩
    · exact decodeIn_other_escape ps rest he hvex hevex
    · rw [decodeIn_vex, decodeVex_other ps false rest h]
    · rw [decodeIn_evex, decodeEvex_other ps false rest h]
  · have hr := (rule_undefinedOpcode_iff _).2 hm
    refine step_of_notThisFamily (by rw [hr]; decide) ?_
    rw [hc, mode_eq_bits64_of_rule_undefinedOpcode hr, decodeIn_vex_other ps b1 rest h]

end Sys2Proof.Machine
end

section
/-! SUPPORT. Runs of a program: the step's length, the launch, and how a run ends (10_state.md R25, 70_reset_and_hazards.md R173). -/

namespace Sys2Proof.Machine

open Sys2Proof.Safety

/-- A completed step runs the decoded instruction, which has 5 to 15 bytes. -/
theorem step_next_decoded {s t : State} (h : step s = .next t) : ∃ i rest, decode (codeBytes s) = .instr i rest ∧
    exec i s = .next t ∧ 5 ≤ i.length ∧ i.length ≤ 15 ∧ t.pc = s.pc + BitVec.ofNat 64 i.length := by
  obtain ⟨i, rest, hdec, hexec⟩ := decode_of_step_next h
  obtain ⟨-, front, hbytes, hn, -⟩ := decodedInstructionsAreWellFormed _ i rest hdec
  have hle : (codeBytes s).length ≤ 15 := codeBytes_length_le s
  rw [hbytes, List.length_append, hn] at hle
  exact ⟨i, rest, hdec, hexec, length_ge_five i, by omega, (exec_frame hexec).2⟩

/-- Without regions a launched program is read back by the fetch. -/
theorem byteAt_fetch_launch {s : State} {start : Word64} {code : List Byte} (hwf : s.mem.wf = true)
    (hr : s.cfg.regions = []) (hlen : code.length ≤ 2 ^ 64) {k : Nat} (h : k < code.length) :
    (s.launch start code).byteAt .fetch (byteAddress start k) = code[k] := by
  have ht : (s.launch start code).translate .fetch (byteAddress start k) = .mapped (byteAddress start k) false := by
    simp [State.translate, translateIn, hr]
  rw [State.byteAt, ht]
  exact s.placeCode_read_same hr code start s.mem hwf hlen k h

section Run

variable {start : Word64} {len : Nat} {s t : State}

theorem notYetFinal_zero : NotYetFinal start len 0 s := fun _ _ _ _ _ => by omega

/-- A run that is not past the program after its first step is as final as the run from there. -/
theorem notYetFinal_succ {k : Nat} (hs : step s = .next t) (hpc : t.pc ≠ pastEnd start len)
    (h : NotYetFinal start len k t) : NotYetFinal start len (k + 1) s := by
  intro j h0 hj u hu
  obtain ⟨j, rfl⟩ := Nat.exists_eq_add_of_lt h0
  rw [Nat.zero_add, run_succ_of_next j hs] at hu
  rcases Nat.eq_zero_or_pos j with rfl | hpos
  · rw [(run_zero t u).1 hu]
    exact hpc
  · exact h j hpos (by omega) u hu

/-- What describes the rest of a run describes the run. -/
theorem endDescribes_succ {n : Nat} (hs : step s = .next t) (hpc : t.pc ≠ pastEnd start len) {e : RunEnd}
    (h : EndDescribes start len n t e) : EndDescribes start len (n + 1) s e := by
  cases e with
  | running u =>
    obtain ⟨hrun, hnot⟩ := h
    exact ⟨(run_succ_of_next n hs).trans hrun, notYetFinal_succ hs hpc hnot⟩
  | final u =>
    obtain ⟨hu, k, hk, hnot, hrun⟩ := h
    exact ⟨hu, k + 1, by omega, notYetFinal_succ hs hpc hnot, (run_succ_of_next (k + 1) hs).trans hrun⟩
  | faulted f u =>
    obtain ⟨k, hk, hnot, v, hrun, hfault⟩ := h
    exact ⟨k + 1, by omega, notYetFinal_succ hs hpc hnot, v, (run_succ_of_next k hs).trans hrun, hfault⟩
  | refused r u =>
    obtain ⟨k, hk, hnot, hrun, href⟩ := h
    exact ⟨k + 1, by omega, notYetFinal_succ hs hpc hnot, (run_succ_of_next k hs).trans hrun, href⟩

end Run

/-- The end of a run describes it, by induction on the steps allowed. -/
theorem endDescribes_runProgram (start : Word64) (len n : Nat) :
    ∀ s, EndDescribes start len n s (runProgram start len n s) := by
  induction n with
  | zero => exact fun s => ⟨(run_zero s s).2 rfl, notYetFinal_zero⟩
  | succ n ih =>
    intro s
    rw [runProgram]
    cases hs : step s with
    | next t =>
      dsimp only
      split_ifs with hpc
      · exact ⟨hpc, 0, by omega, notYetFinal_zero, (run_succ_of_next 0 hs).trans ((run_zero t t).2 rfl)⟩
      · exact endDescribes_succ hs hpc (ih t)
    | fault f => exact ⟨0, by omega, notYetFinal_zero, s, (run_zero s s).2 rfl, hs, rfl⟩
    | refused r => exact ⟨0, by omega, notYetFinal_zero, (run_zero s s).2 rfl, hs⟩

/-- Settles O42: the step by what it decoded, the launch by the bytes it placed, the run by induction. -/
theorem straightLineRuns : Obligations.StraightLineRuns :=
  ⟨fun _ _ h => step_next_decoded h,
    fun s start code hwf hr hlen => ⟨s.launch_pc start code, fun _ h => byteAt_fetch_launch hwf hr hlen h⟩,
    endDescribes_runProgram⟩

end Sys2Proof.Machine
end

section
/-! SUPPORT. The rows of the opcode table: effect, encoding and common exceptions, assembled from the lemmas above (40_vex_forms.md, 41_evex_scalar_broadcast.md, 42_evex_tuple_broadcast.md). -/

namespace Sys2Proof.Machine

open Sys2Proof.Safety

/-! ## The parts of a row -/

/-- Every form has the common exception list. -/
theorem commonExceptions (i : Instr) : CommonExceptions i :=
  ⟨enablingStops i, memoryStops i, registerStops i, forbiddenFrontStops i⟩

/-- The encoding of a VEX row: L in byte 2, and mod = 11b for a register source. -/
theorem vexEncoding_of_encode {i : Instr} {ps : List LegacyPrefix} {l : Bool} {op : Byte} {d : BitVec 4} {f : RmFields}
    {registerSource : Bool} (he : encode i = encodeVex ps l op d f) (hmd : f.md = 3#2 ↔ registerSource = true) :
    VexEncoding i ps (vexByte2 l) op registerSource := by
  refine ⟨⟨_, _, _, he, (vexByte1_fields ..).1, ?_⟩, fun hwf rest => decodeOfEncodeIsIdentity i rest hwf⟩
  rwa [fieldsByte_hi]

/-- The encoding of a VEX row with a memory source. -/
theorem vexEncoding_mem {i : Instr} {ps : List LegacyPrefix} {l : Bool} {op : Byte} {d : BitVec 4} {m : MemOperand}
    (he : encode i = encodeVex ps l op d m.fields) : VexEncoding i ps (vexByte2 l) op false :=
  vexEncoding_of_encode he (by simp [m.md_ne_three])

/-- The encoding of a VEX row with a register source. -/
theorem vexEncoding_reg {i : Instr} {ps : List LegacyPrefix} {l : Bool} {op : Byte} {d r : BitVec 4}
    (he : encode i = encodeVex ps l op d (vexRegFields r)) : VexEncoding i ps (vexByte2 l) op true :=
  vexEncoding_of_encode he (by simp [vexRegFields])

/-- ModRM.mod is 11b exactly for a register source. -/
theorem source_md_eq_three_iff (src : Source) : src.fields.md = 3#2 ↔ ∃ r, src = .reg r := by
  cases src with
  | reg r => simp [Source.fields]
  | mem m => simp [Source.fields, m.md_ne_three]

/-- The encoding of an EVEX row: W in P1, the masking fields and L'L in P2. -/
theorem evexEncoding_of_encode {i : Instr} {ps : List LegacyPrefix} {w : Bool} {ll : BitVec 2} {op : Byte} {d : BitVec 5}
    {k : Masking} {src : Source} (he : encode i = encodeEvex ps w ll op d k src.fields) :
    EvexEncoding i ps (evexP1 w) op ll k src := by
  refine ⟨⟨_, _, _, he, (evexP0_fields ..).1, ?_⟩, fun hwf rest => decodeOfEncodeIsIdentity i rest hwf⟩
  rw [fieldsByte_hi, source_md_eq_three_iff]

/-- Opcodes 19H, 1AH and 1BH have no form of 128 bits (60_exceptions.md R142). -/
theorem evexBytesRaiseUd_128 {op : Byte} (hop : op = 0x19#8 ∨ op = 0x1A#8 ∨ op = 0x1B#8) (p1 : Byte) :
    EvexBytesRaiseUd p1 op 0#2 false := by
  obtain ⟨-, hlengths, -⟩ := unavailableLengthsRaiseUd
  obtain ⟨h19, h1A, h1B, -⟩ := hlengths p1
  rcases hop with rfl | rfl | rfl
  · exact h19
  · exact h1A
  · exact h1B

/-- Opcode 1BH has no form of 256 bits (60_exceptions.md R142). -/
theorem evexBytesRaiseUd_1B_256 (p1 : Byte) : EvexBytesRaiseUd p1 0x1B#8 1#2 false := by
  obtain ⟨-, hlengths, -⟩ := unavailableLengthsRaiseUd
  obtain ⟨-, -, -, h⟩ := hlengths p1
  exact h

/-! ## VEX rows -/

/-- Settles O1, row 1. -/
theorem vbroadcastssXmmMemRow : Obligations.VbroadcastssXmmMemRow := fun _ _ _ =>
  ⟨vexEffect_of_exec (fun _ => rfl) (by decide) (by decide), vexEncoding_mem (l := false) rfl, commonExceptions _⟩

/-- Settles O2, row 2. -/
theorem vbroadcastssYmmMemRow : Obligations.VbroadcastssYmmMemRow := fun _ _ _ =>
  ⟨vexEffect_of_exec (fun _ => rfl) (by decide) (by decide), vexEncoding_mem (l := true) rfl, commonExceptions _⟩

/-- Settles O3, row 3; opcode 19H has no VEX row of 128 bits. -/
theorem vbroadcastsdYmmMemRow : Obligations.VbroadcastsdYmmMemRow := fun _ _ _ =>
  ⟨vexEffect_of_exec (fun _ => rfl) (by decide) (by decide), vexEncoding_mem (l := true) rfl, commonExceptions _,
    vexBytesRaiseUd_128 rfl (.inl rfl)⟩

/-- Settles O4, row 4; opcode 1AH has no VEX row of 128 bits and none with a register source. -/
theorem vbroadcastf128YmmMemRow : Obligations.Vbroadcastf128YmmMemRow := fun _ _ _ =>
  ⟨vexEffect_of_exec (fun _ => rfl) (by decide) (by decide), vexEncoding_mem (l := true) rfl, commonExceptions _,
    vexBytesRaiseUd_128 rfl (.inr rfl), vexBytesRaiseUd_1A_reg _⟩

/-- Settles O5, row 5. -/
theorem vbroadcastssXmmRegRow : Obligations.VbroadcastssXmmRegRow := fun _ _ _ =>
  ⟨vexEffect_of_exec (fun _ => rfl) (by decide) (by decide), vexEncoding_reg (l := false) rfl, commonExceptions _⟩

/-- Settles O6, row 6. -/
theorem vbroadcastssYmmRegRow : Obligations.VbroadcastssYmmRegRow := fun _ _ _ =>
  ⟨vexEffect_of_exec (fun _ => rfl) (by decide) (by decide), vexEncoding_reg (l := true) rfl, commonExceptions _⟩

/-- Settles O7, row 7; opcode 19H has no VEX row of 128 bits. -/
theorem vbroadcastsdYmmRegRow : Obligations.VbroadcastsdYmmRegRow := fun _ _ _ =>
  ⟨vexEffect_of_exec (fun _ => rfl) (by decide) (by decide), vexEncoding_reg (l := true) rfl, commonExceptions _,
    vexBytesRaiseUd_128 rfl (.inl rfl)⟩

/-! ## EVEX scalar rows -/

/-- Settles O8, row 12. -/
theorem evexVbroadcastssXmmRow : Obligations.EvexVbroadcastssXmmRow := fun _ _ _ _ =>
  ⟨evexEffect_of_exec (fun _ => rfl) (by decide) (by decide), evexEncoding_of_encode (w := false) rfl, commonExceptions _⟩

/-- Settles O9, row 13. -/
theorem evexVbroadcastssYmmRow : Obligations.EvexVbroadcastssYmmRow := fun _ _ _ _ =>
  ⟨evexEffect_of_exec (fun _ => rfl) (by decide) (by decide), evexEncoding_of_encode (w := false) rfl, commonExceptions _⟩

/-- Settles O10, row 14. -/
theorem evexVbroadcastssZmmRow : Obligations.EvexVbroadcastssZmmRow := fun _ _ _ _ =>
  ⟨evexEffect_of_exec (fun _ => rfl) (by decide) (by decide), evexEncoding_of_encode (w := false) rfl, commonExceptions _⟩

/-- Settles O11, row 8; opcode 19H has no EVEX row of 128 bits. -/
theorem evexVbroadcastsdYmmRow : Obligations.EvexVbroadcastsdYmmRow := fun _ _ _ _ =>
  ⟨evexEffect_of_exec (fun _ => rfl) (by decide) (by decide), evexEncoding_of_encode (w := true) rfl, commonExceptions _,
    evexBytesRaiseUd_128 (.inl rfl) _⟩

/-- Settles O12, row 9. -/
theorem evexVbroadcastsdZmmRow : Obligations.EvexVbroadcastsdZmmRow := fun _ _ _ _ =>
  ⟨evexEffect_of_exec (fun _ => rfl) (by decide) (by decide), evexEncoding_of_encode (w := true) rfl, commonExceptions _⟩

/-! ## EVEX tuple rows -/

/-- Settles O13, row 10; opcode 19H has no EVEX row of 128 bits. -/
theorem evexVbroadcastf32x2YmmRow : Obligations.EvexVbroadcastf32x2YmmRow := fun _ _ _ _ =>
  ⟨evexEffect_of_exec (fun _ => rfl) (by decide) (by decide), evexEncoding_of_encode (w := false) rfl, commonExceptions _,
    evexBytesRaiseUd_128 (.inl rfl) _⟩

/-- Settles O14, row 11. -/
theorem evexVbroadcastf32x2ZmmRow : Obligations.EvexVbroadcastf32x2ZmmRow := fun _ _ _ _ =>
  ⟨evexEffect_of_exec (fun _ => rfl) (by decide) (by decide), evexEncoding_of_encode (w := false) rfl, commonExceptions _⟩

/-- Settles O15, row 15; opcode 1AH has no EVEX row of 128 bits and none with a register source. -/
theorem evexVbroadcastf32x4YmmRow : Obligations.EvexVbroadcastf32x4YmmRow := fun _ _ _ _ =>
  ⟨evexEffect_of_exec (fun _ => rfl) (by decide) (by decide), evexEncoding_of_encode (w := false) rfl, commonExceptions _,
    evexBytesRaiseUd_128 (.inr (.inl rfl)) _, evexBytesRaiseUd_reg (.inl rfl) _ _⟩

/-- Settles O16, row 16; opcode 1AH has no EVEX row of 128 bits and none with a register source. -/
theorem evexVbroadcastf32x4ZmmRow : Obligations.EvexVbroadcastf32x4ZmmRow := fun _ _ _ _ =>
  ⟨evexEffect_of_exec (fun _ => rfl) (by decide) (by decide), evexEncoding_of_encode (w := false) rfl, commonExceptions _,
    evexBytesRaiseUd_128 (.inr (.inl rfl)) _, evexBytesRaiseUd_reg (.inl rfl) _ _⟩

/-- Settles O17, row 17; opcode 1AH has no EVEX row of 128 bits and none with a register source. -/
theorem evexVbroadcastf64x2YmmRow : Obligations.EvexVbroadcastf64x2YmmRow := fun _ _ _ _ =>
  ⟨evexEffect_of_exec (fun _ => rfl) (by decide) (by decide), evexEncoding_of_encode (w := true) rfl, commonExceptions _,
    evexBytesRaiseUd_128 (.inr (.inl rfl)) _, evexBytesRaiseUd_reg (.inl rfl) _ _⟩

/-- Settles O18, row 18; opcode 1AH has no EVEX row of 128 bits and none with a register source. -/
theorem evexVbroadcastf64x2ZmmRow : Obligations.EvexVbroadcastf64x2ZmmRow := fun _ _ _ _ =>
  ⟨evexEffect_of_exec (fun _ => rfl) (by decide) (by decide), evexEncoding_of_encode (w := true) rfl, commonExceptions _,
    evexBytesRaiseUd_128 (.inr (.inl rfl)) _, evexBytesRaiseUd_reg (.inl rfl) _ _⟩

/-- Settles O19, row 19; opcode 1BH has an EVEX row of 512 bits only, and none with a register source. -/
theorem evexVbroadcastf32x8ZmmRow : Obligations.EvexVbroadcastf32x8ZmmRow := fun _ _ _ _ =>
  ⟨evexEffect_of_exec (fun _ => rfl) (by decide) (by decide), evexEncoding_of_encode (w := false) rfl, commonExceptions _,
    evexBytesRaiseUd_128 (.inr (.inr rfl)) _, evexBytesRaiseUd_1B_256 _, evexBytesRaiseUd_reg (.inr rfl) _ _⟩

/-- Settles O20, row 20; opcode 1BH has an EVEX row of 512 bits only, and none with a register source. -/
theorem evexVbroadcastf64x4ZmmRow : Obligations.EvexVbroadcastf64x4ZmmRow := fun _ _ _ _ =>
  ⟨evexEffect_of_exec (fun _ => rfl) (by decide) (by decide), evexEncoding_of_encode (w := true) rfl, commonExceptions _,
    evexBytesRaiseUd_128 (.inr (.inr rfl)) _, evexBytesRaiseUd_1B_256 _, evexBytesRaiseUd_reg (.inr rfl) _ _⟩

end Sys2Proof.Machine
end
